-- ==== Sys2Proof/Word.lean ====
section
/-! DEFINITION. The widths the spec gives its values (10_state.md R20, 30_encoding.md R71). -/

namespace Sys2Proof

/-- A byte: a memory cell, a general register, a timer, the immediate `nn` (R20, R71). -/
abbrev Byte := BitVec 8

/-- A 16-bit value: an instruction word, the PC container, a stack slot (R25, R28, R70). -/
abbrev Word := BitVec 16

/-- A 12-bit value: the index register `I` and the address field `nnn` (R24, R71). -/
abbrev Addr := BitVec 12

/-- A 4-bit field: the register indices `x` and `y` and the sprite height `n` (R71). -/
abbrev Nibble := BitVec 4

end Sys2Proof
end

