-- ==== Sys2Proof/Machine/Flags.lean ====
section
/-! DEFINITION. Every flag computation of the machine (10_state.md R22, 42_alu.md R126–R130, 43_index_memory.md
R142) and the 8-bit results that go with them (R132): computed on the exact integers and narrowed at the end. The
collision flag of R165 is `Blit.hit` (Machine/Ops.lean). -/

namespace Sys2Proof.Machine

/-- `(a + b) mod 256` (R121, R126). -/
def sumByte (a b : Byte) : Byte := BitVec.ofNat 8 (a.toNat + b.toNat)

/-- Carry: the unwrapped sum exceeds 255 (R126). -/
def carryOut (a b : Byte) : Bool := decide (a.toNat + b.toNat > 255)

/-- `(a - b) mod 256` (R127, R128). -/
def diffByte (a b : Byte) : Byte := BitVec.ofInt 8 ((a.toNat : Int) - (b.toNat : Int))

/-- NOT borrow of `a - b`: 0 exactly when `a < b` (R127, R128). -/
def notBorrow (a b : Byte) : Bool := decide (¬ a.toNat < b.toNat)

/-- `a >> 1` (R129). -/
def shiftRight (a : Byte) : Byte := a >>> 1

/-- The bit a right shift moves out, bit 0 (R129). -/
def shiftedOutRight (a : Byte) : Bool := a.getLsbD 0

/-- `(a << 1) mod 256` (R130). -/
def shiftLeft (a : Byte) : Byte := a <<< 1

/-- The bit a left shift moves out, bit 7 (R130). -/
def shiftedOutLeft (a : Byte) : Bool := a.getLsbD 7

/-- `(i + b) & 0xFFF` (R142). -/
def indexSum (i : Addr) (b : Byte) : Addr := BitVec.ofNat 12 (i.toNat + b.toNat)

/-- The unmasked sum reaches 4096 (R142). -/
def indexOverflow (i : Addr) (b : Byte) : Bool := decide (i.toNat + b.toNat ≥ 4096)

end Sys2Proof.Machine
end

