-- ==== Sys2Proof/Syntax.lean ====
section
/-! DEFINITION. The instructions: one constructor per row of the opcode map (30_encoding.md R76), in its order. -/

namespace Sys2Proof

/-- The 34 instructions of R76. Each operand has exactly the width of its field (R71, R73), so every term is an
instruction the machine has. `shr` and `shl` keep the field `y` they ignore, so that no bit of the word is lost
(R73, R79). -/
inductive Instr where
  /-- 00E0 -/
  | cls
  /-- 00EE -/
  | ret
  /-- 1nnn -/
  | jp (nnn : Addr)
  /-- 2nnn -/
  | call (nnn : Addr)
  /-- 3xnn -/
  | seImm (x : Nibble) (nn : Byte)
  /-- 4xnn -/
  | sneImm (x : Nibble) (nn : Byte)
  /-- 5xy0 -/
  | seReg (x y : Nibble)
  /-- 9xy0 -/
  | sneReg (x y : Nibble)
  /-- 6xnn -/
  | ldImm (x : Nibble) (nn : Byte)
  /-- 7xnn -/
  | addImm (x : Nibble) (nn : Byte)
  /-- 8xy0 -/
  | ldReg (x y : Nibble)
  /-- 8xy1 -/
  | or (x y : Nibble)
  /-- 8xy2 -/
  | and (x y : Nibble)
  /-- 8xy3 -/
  | xor (x y : Nibble)
  /-- 8xy4 -/
  | addReg (x y : Nibble)
  /-- 8xy5 -/
  | sub (x y : Nibble)
  /-- 8xy7 -/
  | subn (x y : Nibble)
  /-- 8xy6 -/
  | shr (x y : Nibble)
  /-- 8xyE -/
  | shl (x y : Nibble)
  /-- Annn -/
  | ldI (nnn : Addr)
  /-- Bnnn -/
  | jpV0 (nnn : Addr)
  /-- Cxnn -/
  | rnd (x : Nibble) (nn : Byte)
  /-- Dxyn -/
  | drw (x y n : Nibble)
  /-- Ex9E -/
  | skp (x : Nibble)
  /-- ExA1 -/
  | sknp (x : Nibble)
  /-- Fx07 -/
  | ldVxDt (x : Nibble)
  /-- Fx0A -/
  | ldVxK (x : Nibble)
  /-- Fx15 -/
  | ldDtVx (x : Nibble)
  /-- Fx18 -/
  | ldStVx (x : Nibble)
  /-- Fx1E -/
  | addIVx (x : Nibble)
  /-- Fx29 -/
  | ldFVx (x : Nibble)
  /-- Fx33 -/
  | ldBVx (x : Nibble)
  /-- Fx55 -/
  | ldMemVx (x : Nibble)
  /-- Fx65 -/
  | ldVxMem (x : Nibble)
  deriving DecidableEq, Repr

end Sys2Proof
end

