-- ==== Sys2Proof/Decode.lean ====
section
/-! DEFINITION. Decoding, total on every word and on any bytes (30_encoding.md R70–R78), and after it the
encoder and the opcode map of R76 written from the same table. -/

namespace Sys2Proof

/-- R74: what a word decodes to, exactly one instruction of R76 or `Unknown(w)`. -/
inductive Decoded where
  | instr (i : Instr)
  | unknown (w : Word)
  deriving DecidableEq, Repr

/-- What the front of a byte sequence decodes to: a word and the bytes after it (R70), or a rejection of a
sequence too short to hold one. -/
inductive DecodedBytes where
  | word (d : Decoded) (rest : List Byte)
  | truncated (bytes : List Byte)
  deriving DecidableEq, Repr

/-! ## The fields of a word (R71) -/

/-- `op`, w[15:12]. -/
def opField (w : Word) : Nibble := w.extractLsb' 12 4

/-- `x`, w[11:8]. -/
def xField (w : Word) : Nibble := w.extractLsb' 8 4

/-- `y`, w[7:4]. -/
def yField (w : Word) : Nibble := w.extractLsb' 4 4

/-- `n`, w[3:0]. -/
def nField (w : Word) : Nibble := w.extractLsb' 0 4

/-- `nn`, w[7:0]. -/
def nnField (w : Word) : Byte := w.extractLsb' 0 8

/-- `nnn`, w[11:0]. -/
def nnnField (w : Word) : Addr := w.extractLsb' 0 12

/-- R53: the byte at the lower address is bits 15:8. -/
def wordOfBytes (high low : Byte) : Word := high ++ low

/-- R53 read the other way: bits 15:8, the byte at the lower address. -/
def highByte (w : Word) : Byte := w.extractLsb' 8 8

/-- R53 read the other way: bits 7:0, the byte at the higher address. -/
def lowByte (w : Word) : Byte := w.extractLsb' 0 8

/-! ## The decoder (R74–R78) -/

/-- The 0 group of R76: CLS and RET are fixed words, every other 0nnn word is unknown. -/
def decodeGroup0 (w : Word) : Decoded :=
  match (nnnField w).toNat with
  | 0x0E0 => .instr .cls
  | 0x0EE => .instr .ret
  | _ => .unknown w

/-- The 8 group of R76, chosen by the low nibble. -/
def decodeGroup8 (w : Word) : Decoded :=
  match (nField w).toNat with
  | 0x0 => .instr (.ldReg (xField w) (yField w))
  | 0x1 => .instr (.or (xField w) (yField w))
  | 0x2 => .instr (.and (xField w) (yField w))
  | 0x3 => .instr (.xor (xField w) (yField w))
  | 0x4 => .instr (.addReg (xField w) (yField w))
  | 0x5 => .instr (.sub (xField w) (yField w))
  | 0x6 => .instr (.shr (xField w) (yField w))
  | 0x7 => .instr (.subn (xField w) (yField w))
  | 0xE => .instr (.shl (xField w) (yField w))
  | _ => .unknown w

/-- The E group of R76, chosen by the low byte. -/
def decodeGroupE (w : Word) : Decoded :=
  match (nnField w).toNat with
  | 0x9E => .instr (.skp (xField w))
  | 0xA1 => .instr (.sknp (xField w))
  | _ => .unknown w

/-- The F group of R76, chosen by the low byte. -/
def decodeGroupF (w : Word) : Decoded :=
  match (nnField w).toNat with
  | 0x07 => .instr (.ldVxDt (xField w))
  | 0x0A => .instr (.ldVxK (xField w))
  | 0x15 => .instr (.ldDtVx (xField w))
  | 0x18 => .instr (.ldStVx (xField w))
  | 0x1E => .instr (.addIVx (xField w))
  | 0x29 => .instr (.ldFVx (xField w))
  | 0x33 => .instr (.ldBVx (xField w))
  | 0x55 => .instr (.ldMemVx (xField w))
  | 0x65 => .instr (.ldVxMem (xField w))
  | _ => .unknown w

/-- R74, R76: the decoder, arranged by the first nibble as the second table of R76. -/
def decodeWord (w : Word) : Decoded :=
  match (opField w).toNat with
  | 0x0 => decodeGroup0 w
  | 0x1 => .instr (.jp (nnnField w))
  | 0x2 => .instr (.call (nnnField w))
  | 0x3 => .instr (.seImm (xField w) (nnField w))
  | 0x4 => .instr (.sneImm (xField w) (nnField w))
  | 0x5 => if nField w = 0x0 then .instr (.seReg (xField w) (yField w)) else .unknown w
  | 0x6 => .instr (.ldImm (xField w) (nnField w))
  | 0x7 => .instr (.addImm (xField w) (nnField w))
  | 0x8 => decodeGroup8 w
  | 0x9 => if nField w = 0x0 then .instr (.sneReg (xField w) (yField w)) else .unknown w
  | 0xA => .instr (.ldI (nnnField w))
  | 0xB => .instr (.jpV0 (nnnField w))
  | 0xC => .instr (.rnd (xField w) (nnField w))
  | 0xD => .instr (.drw (xField w) (yField w) (nField w))
  | 0xE => decodeGroupE w
  | _ => decodeGroupF w

/-- R70: every instruction is two bytes, whatever they are; what follows them is handed back. -/
def decodeBytes : List Byte → DecodedBytes
  | high :: low :: rest => .word (decodeWord (wordOfBytes high low)) rest
  | short => .truncated short

/-! ## The encoder (R72, R76) -/

/-- Format `A` of R72: `oooo nnnn nnnn nnnn`. -/
def formatA (op : Nibble) (nnn : Addr) : Word := op ++ nnn

/-- Formats `XK` and `XS` of R72: `oooo xxxx kkkk kkkk`, the low byte an immediate or a sub-opcode. -/
def formatXK (op x : Nibble) (k : Byte) : Word := op ++ x ++ k

/-- Formats `XY` and `XYN` of R72: `oooo xxxx yyyy ssss`, the low nibble a sub-opcode or a height. -/
def formatXY (op x y s : Nibble) : Word := op ++ x ++ y ++ s

/-- The word of an instruction (R76). -/
def encode : Instr → Word
  | .cls => formatA 0x0 0x0E0
  | .ret => formatA 0x0 0x0EE
  | .jp nnn => formatA 0x1 nnn
  | .call nnn => formatA 0x2 nnn
  | .seImm x nn => formatXK 0x3 x nn
  | .sneImm x nn => formatXK 0x4 x nn
  | .seReg x y => formatXY 0x5 x y 0x0
  | .sneReg x y => formatXY 0x9 x y 0x0
  | .ldImm x nn => formatXK 0x6 x nn
  | .addImm x nn => formatXK 0x7 x nn
  | .ldReg x y => formatXY 0x8 x y 0x0
  | .or x y => formatXY 0x8 x y 0x1
  | .and x y => formatXY 0x8 x y 0x2
  | .xor x y => formatXY 0x8 x y 0x3
  | .addReg x y => formatXY 0x8 x y 0x4
  | .sub x y => formatXY 0x8 x y 0x5
  | .subn x y => formatXY 0x8 x y 0x7
  | .shr x y => formatXY 0x8 x y 0x6
  | .shl x y => formatXY 0x8 x y 0xE
  | .ldI nnn => formatA 0xA nnn
  | .jpV0 nnn => formatA 0xB nnn
  | .rnd x nn => formatXK 0xC x nn
  | .drw x y n => formatXY 0xD x y n
  | .skp x => formatXK 0xE x 0x9E
  | .sknp x => formatXK 0xE x 0xA1
  | .ldVxDt x => formatXK 0xF x 0x07
  | .ldVxK x => formatXK 0xF x 0x0A
  | .ldDtVx x => formatXK 0xF x 0x15
  | .ldStVx x => formatXK 0xF x 0x18
  | .addIVx x => formatXK 0xF x 0x1E
  | .ldFVx x => formatXK 0xF x 0x29
  | .ldBVx x => formatXK 0xF x 0x33
  | .ldMemVx x => formatXK 0xF x 0x55
  | .ldVxMem x => formatXK 0xF x 0x65

/-- The bytes of an instruction as memory holds them, the first at the lower address (R53, R70). -/
def encodeBytes (i : Instr) : List Byte := [highByte (encode i), lowByte (encode i)]

/-! ## The opcode map (R76), by mask and match -/

/-- The tag column of R76. -/
def tagOf : Instr → String
  | .cls => "CLS"
  | .ret => "RET"
  | .jp _ => "JP"
  | .call _ => "CALL"
  | .seImm _ _ => "SE_IMM"
  | .sneImm _ _ => "SNE_IMM"
  | .seReg _ _ => "SE_REG"
  | .sneReg _ _ => "SNE_REG"
  | .ldImm _ _ => "LD_IMM"
  | .addImm _ _ => "ADD_IMM"
  | .ldReg _ _ => "LD_REG"
  | .or _ _ => "OR"
  | .and _ _ => "AND"
  | .xor _ _ => "XOR"
  | .addReg _ _ => "ADD_REG"
  | .sub _ _ => "SUB"
  | .subn _ _ => "SUBN"
  | .shr _ _ => "SHR"
  | .shl _ _ => "SHL"
  | .ldI _ => "LD_I"
  | .jpV0 _ => "JP_V0"
  | .rnd _ _ => "RND"
  | .drw _ _ _ => "DRW"
  | .skp _ => "SKP"
  | .sknp _ => "SKNP"
  | .ldVxDt _ => "LD_VX_DT"
  | .ldVxK _ => "LD_VX_K"
  | .ldDtVx _ => "LD_DT_VX"
  | .ldStVx _ => "LD_ST_VX"
  | .addIVx _ => "ADD_I_VX"
  | .ldFVx _ => "LD_F_VX"
  | .ldBVx _ => "LD_B_VX"
  | .ldMemVx _ => "LD_MEM_VX"
  | .ldVxMem _ => "LD_VX_MEM"

/-- One row of R76: a word matches when `(w & mask) = match`. -/
structure OpcodeRow where
  tag : String
  mask : Word
  bits : Word
  deriving DecidableEq, Repr

/-- R75: the word matches the row. -/
def rowMatches (r : OpcodeRow) (w : Word) : Bool := w &&& r.mask == r.bits

/-- Rows 1 to 19 of R76. -/
def opcodeMapLow : List OpcodeRow :=
  [⟨"CLS", 0xFFFF, 0x00E0⟩, ⟨"RET", 0xFFFF, 0x00EE⟩, ⟨"JP", 0xF000, 0x1000⟩, ⟨"CALL", 0xF000, 0x2000⟩,
   ⟨"SE_IMM", 0xF000, 0x3000⟩, ⟨"SNE_IMM", 0xF000, 0x4000⟩, ⟨"SE_REG", 0xF00F, 0x5000⟩,
   ⟨"SNE_REG", 0xF00F, 0x9000⟩, ⟨"LD_IMM", 0xF000, 0x6000⟩, ⟨"ADD_IMM", 0xF000, 0x7000⟩,
   ⟨"LD_REG", 0xF00F, 0x8000⟩, ⟨"OR", 0xF00F, 0x8001⟩, ⟨"AND", 0xF00F, 0x8002⟩, ⟨"XOR", 0xF00F, 0x8003⟩,
   ⟨"ADD_REG", 0xF00F, 0x8004⟩, ⟨"SUB", 0xF00F, 0x8005⟩, ⟨"SUBN", 0xF00F, 0x8007⟩, ⟨"SHR", 0xF00F, 0x8006⟩,
   ⟨"SHL", 0xF00F, 0x800E⟩]

/-- Rows 20 to 34 of R76 (row 20 is `Annn`: 90_conflicts.md C1). -/
def opcodeMapHigh : List OpcodeRow :=
  [⟨"LD_I", 0xF000, 0xA000⟩, ⟨"JP_V0", 0xF000, 0xB000⟩, ⟨"RND", 0xF000, 0xC000⟩, ⟨"DRW", 0xF000, 0xD000⟩,
   ⟨"SKP", 0xF0FF, 0xE09E⟩, ⟨"SKNP", 0xF0FF, 0xE0A1⟩, ⟨"LD_VX_DT", 0xF0FF, 0xF007⟩,
   ⟨"LD_VX_K", 0xF0FF, 0xF00A⟩, ⟨"LD_DT_VX", 0xF0FF, 0xF015⟩, ⟨"LD_ST_VX", 0xF0FF, 0xF018⟩,
   ⟨"ADD_I_VX", 0xF0FF, 0xF01E⟩, ⟨"LD_F_VX", 0xF0FF, 0xF029⟩, ⟨"LD_B_VX", 0xF0FF, 0xF033⟩,
   ⟨"LD_MEM_VX", 0xF0FF, 0xF055⟩, ⟨"LD_VX_MEM", 0xF0FF, 0xF065⟩]

/-- The 34 rows of R76, in its order. -/
def opcodeMap : List OpcodeRow := opcodeMapLow ++ opcodeMapHigh

/-! ## The decoder on a numbered word of spec/opcode_table.json -/

/-- The table's number `w` as a word: bits above `nbits` are zero. -/
def tableWord (nbits w : Nat) : Word := BitVec.ofNat 16 (w % 2 ^ nbits)

/-- The instruction the decoder reads from the bytes of a numbered word of the opcode table. -/
def decodeTableWord (nbits w : Nat) : Option Instr :=
  match decodeBytes [highByte (tableWord nbits w), lowByte (tableWord nbits w)] with
  | .word (.instr i) _ => some i
  | _ => none

end Sys2Proof
end

