-- ==== Sys2Proof/Config.lean ====
section
/-! DEFINITION. What is fixed for the core's lifetime (00_scope.md R6, 92_eei_decisions.md D7): the four
policies a core is built with, and the one free value. The sizes of R6 that the source gives stand as numbers where
they are used: 4096 bytes of memory, the font's 80 bytes at 0x050, the program from 0x200, a 64 × 32 grid. -/

namespace Sys2Proof

/-- `UNKNOWN_OPCODE_POLICY` (R6, R94): what executing an unknown word does. -/
inductive UnknownOpcodePolicy where
  | noOp
  | fatal
  deriving DecidableEq, Repr

/-- `BNNN_MASK` (R6, R108): whether Bnnn reduces its target to 12 bits. -/
inductive BnnnMask where
  | unmasked
  | mask12
  deriving DecidableEq, Repr

/-- `DRAW_START_WRAP` (R6, R162): whether Dxyn reduces its start coordinates modulo 64 and 32. -/
inductive DrawStart where
  | clip
  | wrap
  deriving DecidableEq, Repr

/-- The policy parameters of R6 that instructions consult. Log entry 3: plain data in the state, so that a
claim about every state is a claim about every choice of them. -/
structure Policies where
  unknownOpcode : UnknownOpcodePolicy
  bnnnMask : BnnnMask
  drawStart : DrawStart
  loadStoreAdvancesI : Bool
  deriving DecidableEq, Repr

/-- `rand8()` (R36, R131, D18): the byte that draw number `n` gives. A FREE VALUE (log entry 2): it has no
body, so no claim can rest on what it is. -/
opaque Config.rand8 : Nat → Byte

end Sys2Proof
end

