-- ==== Sys2Proof/Machine/Defaults.lean ====
section
/-! DEFINITION. The default parameters of 00_scope.md R6, with the font of 20_memory.md R58, and what memory
holds after an empty construction (70_reset_and_hazards.md R201). -/

namespace Sys2Proof.Machine

/-- The default policies (R6). -/
def defaultPolicies : Policies where
  unknownOpcode := .noOp
  bnnnMask := .unmasked
  drawStart := .clip
  loadStoreAdvancesI := false

/-- `FONT_DATA`, digits 0 to 7 (R58; UNVERIFIED against the implementation, log entry 4). -/
def fontLow : List Byte :=
  [0xF0, 0x90, 0x90, 0x90, 0xF0,
   0x20, 0x60, 0x20, 0x20, 0x70,
   0xF0, 0x10, 0xF0, 0x80, 0xF0,
   0xF0, 0x10, 0xF0, 0x10, 0xF0,
   0x90, 0x90, 0xF0, 0x10, 0x10,
   0xF0, 0x80, 0xF0, 0x10, 0xF0,
   0xF0, 0x80, 0xF0, 0x90, 0xF0,
   0xF0, 0x10, 0x20, 0x40, 0x40]

/-- `FONT_DATA`, digits 8 to F (R58; UNVERIFIED against the implementation, log entry 4). -/
def fontHigh : List Byte :=
  [0xF0, 0x90, 0xF0, 0x90, 0xF0,
   0xF0, 0x90, 0xF0, 0x10, 0xF0,
   0xF0, 0x90, 0xF0, 0x90, 0x90,
   0xE0, 0x90, 0xE0, 0x90, 0xE0,
   0xF0, 0x80, 0x80, 0x80, 0xF0,
   0xE0, 0x90, 0x90, 0x90, 0xE0,
   0xF0, 0x80, 0xF0, 0x80, 0xF0,
   0xF0, 0x80, 0xF0, 0x80, 0x80]

/-- The default `FONT_DATA` (R58). -/
def fontData : List Byte := fontLow ++ fontHigh

/-- The default `UNLOADED_FILL` (R6, R201; UNVERIFIED, log entry 5). -/
def unloadedFill : Byte := 0x00

/-- R57, R201: the byte at `a` after construction with an empty program and the default font and fill. It is
what an address that memory does not list reads as. -/
def initialByte (a : Nat) : Byte :=
  if 0x050 ≤ a ∧ a < 0x0A0 then fontData.getD (a - 0x050) unloadedFill else unloadedFill

end Sys2Proof.Machine
end

