-- ==== Sys2Proof/Machine/State.lean ====
section
/-! DEFINITION. The state (10_state.md R20), the reasons a step can stop, and the state after reset
(70_reset_and_hazards.md R202). -/

namespace Sys2Proof.Machine

/-- Memory `M` (R50): the bytes that differ from `initialByte`, addresses strictly rising (Machine/Ops.lean has
`Memory.wf`). -/
abbrev Memory := List Host.Cell

/-- The framebuffer `FB[c][r]` (R32), column first as the spec indexes it; `true` is on. -/
abbrev Screen := Vector (Vector Bool 32) 64

/-- The one state aggregate of R20. The widths that R37 states as bounds are the fields' types. -/
structure State where
  /-- `M` (R50). -/
  mem : Memory
  /-- `V[0..15]`, VF being `V[15]` (R21, R22). -/
  v : Vector Byte 16
  /-- The index register `I` (R24). -/
  i : Addr
  /-- The program counter, a 16-bit container (R25, R27, D2). -/
  pc : Word
  /-- The call-stack slots `S[0..15]` (R28). -/
  stack : Vector Word 16
  /-- The call-stack depth `SP`, 0 to 16 (R28). -/
  sp : Fin 17
  /-- The delay timer `DT` (R30). -/
  dt : Byte
  /-- The sound timer `ST` (R30). -/
  st : Byte
  /-- The keypad flags `K[0..15]`, `true` meaning down (R31). -/
  keys : Vector Bool 16
  /-- The framebuffer (R32). -/
  fb : Screen
  /-- The policies the core was built with (R6, D7); nothing changes them. -/
  policies : Policies
  /-- How many random bytes have been drawn: THE MODEL'S OWN field, which numbers the free values of `rand8()`
  (DESIGN CHOICE, log entry 2). -/
  draws : Nat
  deriving DecidableEq, Repr

/-- The fault kinds `step()` reports (60_exceptions.md R180, R181). -/
inductive FaultKind where
  | stackOverflow
  | stackUnderflow
  | outOfBoundsAddress
  | unknownOpcode
  deriving DecidableEq, Repr

/-- `Err(kind)` (R90, R180), with the state the step leaves (R182): the host may go on from it (R184, log
entry 1). -/
inductive Fault where
  /-- Raised by CALL at SP = 16 (R103). Safe: a run stops where the core could go on, from `after`. -/
  | stackOverflow (after : State)
  /-- Raised by RET at SP = 0 (R101). Safe: a run stops where the core could go on, from `after`. -/
  | stackUnderflow (after : State)
  /-- Raised by a fetch at PC ≥ 0xFFF (R91), and by DRW, LD_B_VX, LD_MEM_VX and LD_VX_MEM on a range that runs
  past 0xFFF (R140). Safe: a run stops where the core could go on, from `after`. -/
  | outOfBoundsAddress (after : State)
  /-- Raised by a word no row of R76 matches, under the policy `Fatal` (R94). Safe: a run stops where the core
  could go on, from `after`. -/
  | unknownOpcode (after : State)
  deriving DecidableEq, Repr

/-- Why a step has no meaning. -/
inductive Refusal where
  /-- Raised by an arm of `exec` whose instruction has no meaning yet, of which there is none. Safe: nothing can
  be proved of a step that did not happen. -/
  | notModelled (mnemonic : String)
  deriving DecidableEq, Repr

/-- The state after `new([])` with the default parameters (R202; zero registers are decision D17, log entry 6). -/
def State.reset : State where
  mem := []
  v := Vector.replicate 16 0x00
  i := 0x000
  pc := 0x200
  stack := Vector.replicate 16 0x0000
  sp := 0
  dt := 0
  st := 0
  keys := Vector.replicate 16 false
  fb := Vector.replicate 64 (Vector.replicate 32 false)
  policies := defaultPolicies
  draws := 0

end Sys2Proof.Machine
end

