-- ==== Sys2Proof/Machine/Ops.lean ====
section
/-! DEFINITION. The named operations over the state: memory (20_memory.md), registers, the call stack and the PC
(10_state.md), the framebuffer (44_display.md), raising a fault (60_exceptions.md) and fetching a word
(40_cycle.md). Every reader and writer of the state goes through them. -/

namespace Sys2Proof.Machine

/-! ## Memory (R50–R56) -/

/-- `MemRead(a, 1)` of an address in memory (R52): the listed byte, or what construction left there. -/
def Memory.read : Memory → Nat → Byte
  | [], a => initialByte a
  | (k, c) :: rest, a => if a = k then c else Memory.read rest a

/-- `MemWrite(a, 1, b)` of an address in memory (R52), keeping the list in its one form: an address whose byte is
again the initial one is not listed. -/
def Memory.write : Memory → Nat → Byte → Memory
  | [], a, b => if b = initialByte a then [] else [(a, b)]
  | (k, c) :: rest, a, b =>
    if a < k then
      if b = initialByte a then (k, c) :: rest else (a, b) :: (k, c) :: rest
    else if a = k then
      if b = initialByte a then rest else (a, b) :: rest
    else (k, c) :: Memory.write rest a b

/-- The list from address `low` on is in form: addresses strictly rising and in memory, no entry equal to what an
unlisted address reads as. -/
def risingFrom : Nat → Memory → Bool
  | _, [] => true
  | low, (k, c) :: rest =>
    decide (low ≤ k) && decide (k < 4096) && decide (c ≠ initialByte k) && risingFrom (k + 1) rest

/-- The canonical form of memory: equal memories are equal lists. -/
def Memory.wf (m : Memory) : Bool := risingFrom 0 m

/-- The memory whose byte at each address `a` is `f a`, in canonical form. Irreducible, so that no proof unfolds 4096
addresses by accident. -/
@[irreducible] def memoryOf (f : Nat → Byte) : Memory :=
  (List.range 4096).filterMap fun a => if f a = initialByte a then none else some (a, f a)

/-- `check(a, k)` (R140): the `k` addresses from `a` on all lie in memory, without wrap-around (R54). A range of no
addresses is never checked (R162). -/
def inMemory (a k : Nat) : Bool := decide (k = 0) || decide (a + k - 1 ≤ 0xFFF)

/-- The byte at `a` (R52). -/
def State.byteAt (s : State) (a : Nat) : Byte := s.mem.read a

/-- The `k` bytes from `a` on, or nothing where the range is not in memory (R54, R140). -/
def State.readBlock (s : State) (a k : Nat) : Option (List Byte) :=
  if inMemory a k then some ((List.range k).map fun j => s.byteAt (a + j)) else none

/-- The memory after writing the bytes from `a` on, in rising order (R144, R145). -/
def writeBytes (m : Memory) (a : Nat) : List Byte → Memory
  | [] => m
  | b :: rest => writeBytes (m.write a b) (a + 1) rest

/-- The state with another memory. -/
def State.setMem (s : State) (m : Memory) : State := { s with mem := m }

/-- The state after writing the bytes from `a` on, or nothing where the range is not in memory: the whole range is
checked before the first write (R54, R140). -/
def State.writeBlock (s : State) (a : Nat) (bytes : List Byte) : Option State :=
  if inMemory a bytes.length then some (s.setMem (writeBytes s.mem a bytes)) else none

/-! ## Registers (R21–R25, R30) -/

/-- `V[x]` (R21). -/
def State.reg (s : State) (x : Nibble) : Byte := s.v[x.toNat]'(x.isLt)

/-- `V[x] <- b` (R21). -/
def State.setReg (s : State) (x : Nibble) (b : Byte) : State := { s with v := s.v.set x.toNat b x.isLt }

/-- `V[k], V[k+1], … <-` the bytes, in rising order (R146). -/
def State.setRegs (s : State) (k : Nat) : List Byte → State
  | [] => s
  | b :: rest => (s.setReg (BitVec.ofNat 4 k) b).setRegs (k + 1) rest

/-- `VF <- (if flag then 1 else 0)` (R22). -/
def State.setFlag (s : State) (flag : Bool) : State := s.setReg 0xF (if flag then 1 else 0)

/-- `I <- a` (R24). -/
def State.setIndex (s : State) (a : Addr) : State := { s with i := a }

/-- `PC <- t` (R25). -/
def State.setPc (s : State) (t : Word) : State := { s with pc := t }

/-- The fetch advance and the skip: `PC <- PC + 2` (R92, R100). -/
def State.advancePc (s : State) : State := s.setPc (s.pc + 2)

/-- A conditional skip (R100). -/
def State.skipIf (s : State) (condition : Bool) : State := if condition then s.advancePc else s

/-- `DT <- b` (R30). -/
def State.setDelay (s : State) (b : Byte) : State := { s with dt := b }

/-- `ST <- b` (R30). -/
def State.setSound (s : State) (b : Byte) : State := { s with st := b }

/-- The keypad flags replaced (R31). -/
def State.setKeys (s : State) (keys : Vector Bool 16) : State := { s with keys := keys }

/-- The draw counter advanced: the free value it numbered is used up (log entry 2). -/
def State.countDraw (s : State) : State := { s with draws := s.draws + 1 }

/-- `rand8()` (R36, R131): the free value that the next draw gives. -/
def State.rand8 (s : State) : Byte := Config.rand8 s.draws

/-! ## The call stack (R28) -/

/-- `S[k]` (R28); no rule reads a slot outside 0..15. -/
def State.slot (s : State) (k : Nat) : Word := if h : k < 16 then s.stack[k] else 0

/-- The stack's slots and depth replaced. -/
def State.setStack (s : State) (stack : Vector Word 16) (sp : Fin 17) : State := { s with stack := stack, sp := sp }

/-- `push(v)` (R28), or nothing where SP = 16. -/
def State.push (s : State) (w : Word) : Option State :=
  if h : s.sp.val < 16 then some (s.setStack (s.stack.set s.sp.val w h) ⟨s.sp.val + 1, by omega⟩) else none

/-- `pop()` (R28), or nothing where SP = 0. The slot keeps its stale value (R29, log entry 9). -/
def State.pop (s : State) : Option (Word × State) :=
  if 0 < s.sp.val then some (s.slot (s.sp.val - 1), s.setStack s.stack ⟨s.sp.val - 1, by omega⟩) else none

/-! ## Faults (R180–R184) -/

/-- `raise F` (R180, R182): the fault with the state the step leaves. An instruction raises it from the state it
was given, which is the one after the fetch advance (R95). -/
def raise (kind : FaultKind) (s : State) : Host.Outcome State Fault Refusal :=
  match kind with
  | .stackOverflow => .fault (.stackOverflow s)
  | .stackUnderflow => .fault (.stackUnderflow s)
  | .outOfBoundsAddress => .fault (.outOfBoundsAddress s)
  | .unknownOpcode => .fault (.unknownOpcode s)

/-- What `Err` carries: the kind only (R181). -/
def Fault.kind : Fault → FaultKind
  | .stackOverflow _ => .stackOverflow
  | .stackUnderflow _ => .stackUnderflow
  | .outOfBoundsAddress _ => .outOfBoundsAddress
  | .unknownOpcode _ => .unknownOpcode

/-- The state after the fault, from which a later `step()` goes on (R182, R184). -/
def Fault.after : Fault → State
  | .stackOverflow s => s
  | .stackUnderflow s => s
  | .outOfBoundsAddress s => s
  | .unknownOpcode s => s

/-- The next state, or a fault of this kind where there is none. -/
def nextOr (kind : FaultKind) (s : State) : Option State → Host.Outcome State Fault Refusal
  | some t => .next t
  | none => raise kind s

/-- Executing an unknown word (R94): nothing beyond the fetch advance under `NoOp`, a fault under `Fatal`. -/
def execUnknown (s : State) : Host.Outcome State Fault Refusal :=
  match s.policies.unknownOpcode with
  | .noOp => .next s
  | .fatal => raise .unknownOpcode s

/-! ## The framebuffer (R32, R160–R165) -/

/-- Every cell off (R161). -/
def blankScreen : Screen := Vector.replicate 64 (Vector.replicate 32 false)

/-- `FB[c][r]` (R32); a cell outside the grid is off. -/
def cellOf (fb : Screen) (c r : Nat) : Bool :=
  if hc : c < 64 then if hr : r < 32 then fb[c][r] else false else false

/-- `FB[c][r] <- on` (R32); outside the grid nothing changes. -/
def setCell (fb : Screen) (c r : Nat) (on : Bool) : Screen :=
  if hc : c < 64 then if hr : r < 32 then fb.set c (fb[c].set r on) else fb else fb

/-- The framebuffer replaced. -/
def State.setScreen (s : State) (fb : Screen) : State := { s with fb := fb }

/-- `FB[c][r]` of the state (R32). -/
def State.cell (s : State) (c r : Nat) : Bool := cellOf s.fb c r

/-- Sprite column `c` of a row byte, bit 7 being column 0 (R160, log entry 11). -/
def spriteBit (row : Byte) (c : Nat) : Bool := row.getLsbD (7 - c)

/-- What a draw has done so far: the framebuffer, and whether an on cell was turned off. -/
structure Blit where
  fb : Screen
  hit : Bool
  deriving DecidableEq, Repr

/-- The per-pixel rule (R163): an on cell goes off and is a collision, an off cell goes on. -/
def toggleCell (acc : Blit) (px py : Nat) : Blit :=
  if cellOf acc.fb px py then ⟨setCell acc.fb px py false, true⟩ else ⟨setCell acc.fb px py true, acc.hit⟩

/-- One pixel of a row: column `c` of the sprite at column `cx`, clipped at the right edge (R162, R164). -/
def drawPixel (row : Byte) (cx py : Nat) (acc : Blit) (c : Nat) : Blit :=
  if cx + c ≥ 64 then acc
  else if spriteBit row c then toggleCell acc (cx + c) py
  else acc

/-- One row of the sprite at screen row `py`, clipped at the bottom edge (R162, R164). -/
def drawRow (row : Byte) (cx py : Nat) (acc : Blit) : Blit :=
  if py ≥ 32 then acc else (List.range 8).foldl (drawPixel row cx py) acc

/-- The rows of the sprite from screen row `py` down (R162). -/
def drawRows (cx : Nat) : List Byte → Nat → Blit → Blit
  | [], _, acc => acc
  | row :: rest, py, acc => drawRows cx rest (py + 1) (drawRow row cx py acc)

/-! ## The keypad (R31, R170) -/

/-- `keyDown(k)` (R170): `K[k]` for k ≤ 15, and false for a key that does not exist. -/
def State.keyDown (s : State) (k : Nat) : Bool := if h : k < 16 then s.keys[k] else false

/-- The lowest key that is down (R174). -/
def State.lowestKey (s : State) : Option Nat := (List.range 16).find? s.keyDown

/-! ## Fetch (R91) -/

/-- The word at PC, big-endian, or nothing where PC + 1 is not in memory (R53, R91). -/
def fetchWord (s : State) : Option Word :=
  if s.pc.toNat + 1 > 0xFFF then none
  else some (wordOfBytes (s.byteAt s.pc.toNat) (s.byteAt (s.pc.toNat + 1)))

/-- The state with a word stored where the next fetch reads it (R53), as far as both bytes are in memory. -/
def placeWord (s : State) (w : Word) : State :=
  (s.writeBlock s.pc.toNat [highByte w, lowByte w]).getD s

end Sys2Proof.Machine
end

