-- ==== Sys2Proof/Machine/Operands.lean ====
section
/-! DEFINITION. The operand forms beyond a plain register or immediate (30_encoding.md R73): jump targets, the
font glyph of a digit, the BCD digits, the register block, the draw coordinates. -/

namespace Sys2Proof.Machine

/-- The address field `nnn` as a PC value, zero-extended (R73, R102). -/
def jumpTarget (nnn : Addr) : Word := nnn.setWidth 16

/-- The target of Bnnn: `nnn + V[0]` without wrap, reduced to 12 bits under `Mask12` (R108). -/
def offsetTarget (mask : BnnnMask) (nnn : Addr) (v0 : Byte) : Word :=
  match mask with
  | .unmasked => BitVec.ofNat 16 (nnn.toNat + v0.toNat)
  | .mask12 => BitVec.ofNat 16 ((nnn.toNat + v0.toNat) % 4096)

/-- `0x50 + b × 5`, the glyph of digit `b` (R143). -/
def glyphAddress (b : Byte) : Addr := BitVec.ofNat 12 (0x50 + b.toNat * 5)

/-- The hundreds, tens and ones digits of a byte (R144). -/
def bcdDigits (b : Byte) : List Byte :=
  [BitVec.ofNat 8 (b.toNat / 100), BitVec.ofNat 8 (b.toNat / 10 % 10), BitVec.ofNat 8 (b.toNat % 10)]

/-- `V[0], …, V[x]` (R145). -/
def State.regBlock (s : State) (x : Nibble) : List Byte :=
  (List.range (x.toNat + 1)).map fun k => s.reg (BitVec.ofNat 4 k)

/-- `I` after a block transfer of `V[0..x]`: `(I + x + 1) & 0xFFF` where the policy advances it, else unchanged
(R145, R146, D10). -/
def State.stepIndex (s : State) (x : Nibble) : State :=
  if s.policies.loadStoreAdvancesI then s.setIndex (BitVec.ofNat 12 (s.i.toNat + x.toNat + 1)) else s

/-- The start column of a draw (R162, D11). -/
def startColumn (policy : DrawStart) (b : Byte) : Nat :=
  match policy with
  | .clip => b.toNat
  | .wrap => b.toNat % 64

/-- The start row of a draw (R162, D11). -/
def startRow (policy : DrawStart) (b : Byte) : Nat :=
  match policy with
  | .clip => b.toNat
  | .wrap => b.toNat % 32

end Sys2Proof.Machine
end

