-- ==== Sys2Proof/Machine/Alu.lean ====
section
/-! DEFINITION. Register loads and the ALU (42_alu.md). Operands are read from the state the instruction starts
in, and where VF is written as a flag it is written last (40_cycle.md R96). -/

namespace Sys2Proof.Machine

/-- LD_IMM, 6xnn (R120). -/
def execLdImm (x : Nibble) (nn : Byte) (s : State) : Host.Outcome State Fault Refusal :=
  .next (s.setReg x nn)

/-- ADD_IMM, 7xnn (R121): no flag. -/
def execAddImm (x : Nibble) (nn : Byte) (s : State) : Host.Outcome State Fault Refusal :=
  .next (s.setReg x (sumByte (s.reg x) nn))

/-- LD_REG, 8xy0 (R122). -/
def execLdReg (x y : Nibble) (s : State) : Host.Outcome State Fault Refusal :=
  .next (s.setReg x (s.reg y))

/-- OR, 8xy1 (R123): VF is not a flag here (D9). -/
def execOr (x y : Nibble) (s : State) : Host.Outcome State Fault Refusal :=
  .next (s.setReg x (s.reg x ||| s.reg y))

/-- AND, 8xy2 (R124): VF is not a flag here (D9). -/
def execAnd (x y : Nibble) (s : State) : Host.Outcome State Fault Refusal :=
  .next (s.setReg x (s.reg x &&& s.reg y))

/-- XOR, 8xy3 (R125): VF is not a flag here (D9). -/
def execXor (x y : Nibble) (s : State) : Host.Outcome State Fault Refusal :=
  .next (s.setReg x (s.reg x ^^^ s.reg y))

/-- ADD_REG, 8xy4 (R126). -/
def execAddReg (x y : Nibble) (s : State) : Host.Outcome State Fault Refusal :=
  .next ((s.setReg x (sumByte (s.reg x) (s.reg y))).setFlag (carryOut (s.reg x) (s.reg y)))

/-- SUB, 8xy5 (R127). -/
def execSub (x y : Nibble) (s : State) : Host.Outcome State Fault Refusal :=
  .next ((s.setReg x (diffByte (s.reg x) (s.reg y))).setFlag (notBorrow (s.reg x) (s.reg y)))

/-- SUBN, 8xy7 (R128): SUB with the operands reversed. -/
def execSubn (x y : Nibble) (s : State) : Host.Outcome State Fault Refusal :=
  .next ((s.setReg x (diffByte (s.reg y) (s.reg x))).setFlag (notBorrow (s.reg y) (s.reg x)))

/-- SHR, 8xy6 (R129): `y` is decoded and not used. -/
def execShr (x _y : Nibble) (s : State) : Host.Outcome State Fault Refusal :=
  .next ((s.setReg x (shiftRight (s.reg x))).setFlag (shiftedOutRight (s.reg x)))

/-- SHL, 8xyE (R130): `y` is decoded and not used. -/
def execShl (x _y : Nibble) (s : State) : Host.Outcome State Fault Refusal :=
  .next ((s.setReg x (shiftLeft (s.reg x))).setFlag (shiftedOutLeft (s.reg x)))

/-- RND, Cxnn (R131): one fresh draw a step. -/
def execRnd (x : Nibble) (nn : Byte) (s : State) : Host.Outcome State Fault Refusal :=
  .next (s.setReg x (s.rand8 &&& nn)).countDraw

end Sys2Proof.Machine
end

