-- ==== Sys2Proof/Machine/ControlFlow.lean ====
section
/-! DEFINITION. Control flow (41_control_flow.md). Each meaning starts from the state after the fetch advance:
PC = p + 2 (R92). -/

namespace Sys2Proof.Machine

/-- RET, 00EE (R101). -/
def execRet (s : State) : Host.Outcome State Fault Refusal :=
  nextOr .stackUnderflow s (s.pop.map fun popped => popped.2.setPc popped.1)

/-- JP, 1nnn (R102). -/
def execJp (nnn : Addr) (s : State) : Host.Outcome State Fault Refusal :=
  .next (s.setPc (jumpTarget nnn))

/-- CALL, 2nnn (R103): the PC pushed is p + 2. -/
def execCall (nnn : Addr) (s : State) : Host.Outcome State Fault Refusal :=
  nextOr .stackOverflow s ((s.push s.pc).map fun pushed => pushed.setPc (jumpTarget nnn))

/-- SE_IMM, 3xnn (R104). -/
def execSeImm (x : Nibble) (nn : Byte) (s : State) : Host.Outcome State Fault Refusal :=
  .next (s.skipIf (s.reg x == nn))

/-- SNE_IMM, 4xnn (R105). -/
def execSneImm (x : Nibble) (nn : Byte) (s : State) : Host.Outcome State Fault Refusal :=
  .next (s.skipIf (s.reg x != nn))

/-- SE_REG, 5xy0 (R106). -/
def execSeReg (x y : Nibble) (s : State) : Host.Outcome State Fault Refusal :=
  .next (s.skipIf (s.reg x == s.reg y))

/-- SNE_REG, 9xy0 (R107). -/
def execSneReg (x y : Nibble) (s : State) : Host.Outcome State Fault Refusal :=
  .next (s.skipIf (s.reg x != s.reg y))

/-- JP_V0, Bnnn (R108). -/
def execJpV0 (nnn : Addr) (s : State) : Host.Outcome State Fault Refusal :=
  .next (s.setPc (offsetTarget s.policies.bnnnMask nnn (s.reg 0x0)))

end Sys2Proof.Machine
end

