-- ==== Sys2Proof/Machine/Display.lean ====
section
/-! DEFINITION. The display instructions (44_display.md). -/

namespace Sys2Proof.Machine

/-- CLS, 00E0 (R161). -/
def execCls (s : State) : Host.Outcome State Fault Refusal :=
  .next (s.setScreen blankScreen)

/-- The state after blitting these sprite rows at (V[x], V[y]), the collision flag written last (R162, R165). -/
def State.drawSprite (s : State) (x y : Nibble) (rows : List Byte) : State :=
  let drawn := drawRows (startColumn s.policies.drawStart (s.reg x)) rows
    (startRow s.policies.drawStart (s.reg y)) ⟨s.fb, false⟩
  (s.setScreen drawn.fb).setFlag drawn.hit

/-- DRW, Dxyn (R162): all n sprite bytes are checked and read before any cell changes (D13). -/
def execDrw (x y n : Nibble) (s : State) : Host.Outcome State Fault Refusal :=
  nextOr .outOfBoundsAddress s ((s.readBlock s.i.toNat n.toNat).map fun rows => s.drawSprite x y rows)

end Sys2Proof.Machine
end

