-- ==== Sys2Proof/Machine/IndexMemory.lean ====
section
/-! DEFINITION. The index register and the memory block transfers (43_index_memory.md). A transfer's whole range is
checked before anything changes (R140). -/

namespace Sys2Proof.Machine

/-- LD_I, Annn (R141). -/
def execLdI (nnn : Addr) (s : State) : Host.Outcome State Fault Refusal :=
  .next (s.setIndex nnn)

/-- ADD_I_VX, Fx1E (R142): the flag is written last. -/
def execAddIVx (x : Nibble) (s : State) : Host.Outcome State Fault Refusal :=
  .next ((s.setIndex (indexSum s.i (s.reg x))).setFlag (indexOverflow s.i (s.reg x)))

/-- LD_F_VX, Fx29 (R143): the formula on all eight bits of V[x]. -/
def execLdFVx (x : Nibble) (s : State) : Host.Outcome State Fault Refusal :=
  .next (s.setIndex (glyphAddress (s.reg x)))

/-- LD_B_VX, Fx33 (R144). -/
def execLdBVx (x : Nibble) (s : State) : Host.Outcome State Fault Refusal :=
  nextOr .outOfBoundsAddress s (s.writeBlock s.i.toNat (bcdDigits (s.reg x)))

/-- LD_MEM_VX, Fx55 (R145). -/
def execLdMemVx (x : Nibble) (s : State) : Host.Outcome State Fault Refusal :=
  nextOr .outOfBoundsAddress s
    ((s.writeBlock s.i.toNat (s.regBlock x)).map fun stored => stored.stepIndex x)

/-- LD_VX_MEM, Fx65 (R146). -/
def execLdVxMem (x : Nibble) (s : State) : Host.Outcome State Fault Refusal :=
  nextOr .outOfBoundsAddress s
    ((s.readBlock s.i.toNat (x.toNat + 1)).map fun bytes => (s.setRegs 0 bytes).stepIndex x)

end Sys2Proof.Machine
end

