-- ==== Sys2Proof/Machine/TimersKeypad.lean ====
section
/-! DEFINITION. The keypad and timer instructions (45_timers_keypad.md). -/

namespace Sys2Proof.Machine

/-- SKP, Ex9E (R171). -/
def execSkp (x : Nibble) (s : State) : Host.Outcome State Fault Refusal :=
  .next (s.skipIf (s.keyDown (s.reg x).toNat))

/-- SKNP, ExA1 (R172). -/
def execSknp (x : Nibble) (s : State) : Host.Outcome State Fault Refusal :=
  .next (s.skipIf (!s.keyDown (s.reg x).toNat))

/-- LD_VX_DT, Fx07 (R173). -/
def execLdVxDt (x : Nibble) (s : State) : Host.Outcome State Fault Refusal :=
  .next (s.setReg x s.dt)

/-- LD_VX_K, Fx0A (R174): with no key down, PC goes back to the instruction itself. -/
def execLdVxK (x : Nibble) (s : State) : Host.Outcome State Fault Refusal :=
  match s.lowestKey with
  | some k => .next (s.setReg x (BitVec.ofNat 8 k))
  | none => .next (s.setPc (s.pc - 2))

/-- LD_DT_VX, Fx15 (R175). -/
def execLdDtVx (x : Nibble) (s : State) : Host.Outcome State Fault Refusal :=
  .next (s.setDelay (s.reg x))

/-- LD_ST_VX, Fx18 (R176). -/
def execLdStVx (x : Nibble) (s : State) : Host.Outcome State Fault Refusal :=
  .next (s.setSound (s.reg x))

end Sys2Proof.Machine
end

