-- ==== Sys2Proof/Machine/Step.lean ====
section
/-! DEFINITION. One step (40_cycle.md R90–R97): fetch, advance, decode, execute. -/

namespace Sys2Proof.Machine

/-- `execute` of what a word decodes to (R93): an instruction's meaning, or the policy for an unknown word. -/
def execDecoded (d : Decoded) (s : State) : Host.Outcome State Fault Refusal :=
  match d with
  | .instr i => exec i s
  | .unknown _ => execUnknown s

/-- `step()` (R93): a fetch fault changes nothing (R91); otherwise PC is advanced first (R92). -/
def step (s : State) : Host.Outcome State Fault Refusal :=
  match fetchWord s with
  | none => raise .outOfBoundsAddress s
  | some w => execDecoded (decodeWord w) s.advancePc

/-- The state with a numbered word of spec/opcode_table.json stored where the next step fetches. -/
def State.withFetchWord (s : State) (nbits w : Nat) : State := placeWord s (tableWord nbits w)

end Sys2Proof.Machine
end

