-- ==== Sys2Proof/Machine/Assembly.lean ====
section
/-! DEFINITION. The written form of a program (30_encoding.md R76, R79): the mnemonic and operands of each instruction, its text,
and the bytes that lines of instructions and raw data stand for. The core itself never reads it (00_scope.md R5). -/

namespace Sys2Proof

/-- The conventional mnemonics (R79, D25). -/
inductive Mnemonic where
  | cls | ret | jp | call | se | sne | ld | add | or | and | xor | sub | subn | shr | shl | rnd | drw | skp | sknp
  deriving DecidableEq, Repr

/-- An operand as R79 writes it. -/
inductive AsmOperand where
  /-- `V0`..`VF` -/
  | v (x : Nibble)
  /-- `nn`, a hex number -/
  | nn (b : Byte)
  /-- `nnn`, a hex number -/
  | nnn (a : Addr)
  /-- `n`, a decimal number 0..15 -/
  | n (k : Nibble)
  /-- `I`, the index register -/
  | index
  /-- `[I]`, memory at I -/
  | atIndex
  /-- `DT`, the delay timer -/
  | delay
  /-- `ST`, the sound timer -/
  | sound
  /-- `K`, the key wait -/
  | key
  /-- `F`, the font glyph -/
  | glyph
  /-- `B`, the BCD form -/
  | bcd
  deriving DecidableEq, Repr

/-- A mnemonic with its operands. -/
structure AsmForm where
  mnemonic : Mnemonic
  operands : List AsmOperand
  deriving DecidableEq, Repr

/-- The written form of an instruction, by the last column of R76. For `SHR` and `SHL` the operand `Vy` is written, although it
has no effect (R79). -/
def asmOf : Instr → AsmForm
  | .cls => ⟨.cls, []⟩
  | .ret => ⟨.ret, []⟩
  | .jp nnn => ⟨.jp, [.nnn nnn]⟩
  | .call nnn => ⟨.call, [.nnn nnn]⟩
  | .seImm x nn => ⟨.se, [.v x, .nn nn]⟩
  | .sneImm x nn => ⟨.sne, [.v x, .nn nn]⟩
  | .seReg x y => ⟨.se, [.v x, .v y]⟩
  | .sneReg x y => ⟨.sne, [.v x, .v y]⟩
  | .ldImm x nn => ⟨.ld, [.v x, .nn nn]⟩
  | .addImm x nn => ⟨.add, [.v x, .nn nn]⟩
  | .ldReg x y => ⟨.ld, [.v x, .v y]⟩
  | .or x y => ⟨.or, [.v x, .v y]⟩
  | .and x y => ⟨.and, [.v x, .v y]⟩
  | .xor x y => ⟨.xor, [.v x, .v y]⟩
  | .addReg x y => ⟨.add, [.v x, .v y]⟩
  | .sub x y => ⟨.sub, [.v x, .v y]⟩
  | .subn x y => ⟨.subn, [.v x, .v y]⟩
  | .shr x y => ⟨.shr, [.v x, .v y]⟩
  | .shl x y => ⟨.shl, [.v x, .v y]⟩
  | .ldI nnn => ⟨.ld, [.index, .nnn nnn]⟩
  | .jpV0 nnn => ⟨.jp, [.v 0x0, .nnn nnn]⟩
  | .rnd x nn => ⟨.rnd, [.v x, .nn nn]⟩
  | .drw x y n => ⟨.drw, [.v x, .v y, .n n]⟩
  | .skp x => ⟨.skp, [.v x]⟩
  | .sknp x => ⟨.sknp, [.v x]⟩
  | .ldVxDt x => ⟨.ld, [.v x, .delay]⟩
  | .ldVxK x => ⟨.ld, [.v x, .key]⟩
  | .ldDtVx x => ⟨.ld, [.delay, .v x]⟩
  | .ldStVx x => ⟨.ld, [.sound, .v x]⟩
  | .addIVx x => ⟨.add, [.index, .v x]⟩
  | .ldFVx x => ⟨.ld, [.glyph, .v x]⟩
  | .ldBVx x => ⟨.ld, [.bcd, .v x]⟩
  | .ldMemVx x => ⟨.ld, [.atIndex, .v x]⟩
  | .ldVxMem x => ⟨.ld, [.v x, .atIndex]⟩

/-! ## The instruction a form stands for (R76), or nothing where no row has the form -/

/-- No operands. -/
def noOperands (i : Instr) : List AsmOperand → Option Instr
  | [] => some i
  | _ => none

/-- One register. -/
def oneRegister (make : Nibble → Instr) : List AsmOperand → Option Instr
  | [.v x] => some (make x)
  | _ => none

/-- Two registers. -/
def twoRegisters (make : Nibble → Nibble → Instr) : List AsmOperand → Option Instr
  | [.v x, .v y] => some (make x y)
  | _ => none

/-- A register and an immediate or another register. -/
def registerWith (imm : Nibble → Byte → Option Instr) (reg : Nibble → Nibble → Option Instr) : List AsmOperand → Option Instr
  | [.v x, .nn nn] => imm x nn
  | [.v x, .v y] => reg x y
  | _ => none

/-- The operands of `JP`: an address, or `V0` and an address. -/
def jumpOperands : List AsmOperand → Option Instr
  | [.nnn nnn] => some (.jp nnn)
  | [.v x, .nnn nnn] => if x = 0x0 then some (.jpV0 nnn) else none
  | _ => none

/-- The operands of `CALL`. -/
def callOperands : List AsmOperand → Option Instr
  | [.nnn nnn] => some (.call nnn)
  | _ => none

/-- The operands of `ADD`. -/
def addOperands : List AsmOperand → Option Instr
  | [.index, .v x] => some (.addIVx x)
  | ops => registerWith (fun x nn => some (.addImm x nn)) (fun x y => some (.addReg x y)) ops

/-- The operands of `DRW`. -/
def drawOperands : List AsmOperand → Option Instr
  | [.v x, .v y, .n n] => some (.drw x y n)
  | _ => none

/-- What `LD` loads into V[x]. -/
def loadRegister (x : Nibble) : AsmOperand → Option Instr
  | .nn nn => some (.ldImm x nn)
  | .v y => some (.ldReg x y)
  | .delay => some (.ldVxDt x)
  | .key => some (.ldVxK x)
  | .atIndex => some (.ldVxMem x)
  | _ => none

/-- Where `LD` puts V[x]. -/
def loadFrom (x : Nibble) : AsmOperand → Option Instr
  | .delay => some (.ldDtVx x)
  | .sound => some (.ldStVx x)
  | .glyph => some (.ldFVx x)
  | .bcd => some (.ldBVx x)
  | .atIndex => some (.ldMemVx x)
  | _ => none

/-- The operands of `LD`. -/
def loadOperands : List AsmOperand → Option Instr
  | [.v x, source] => loadRegister x source
  | [destination, .v x] => loadFrom x destination
  | [.index, .nnn nnn] => some (.ldI nnn)
  | _ => none

/-- The instruction that a form stands for, or nothing where R76 has no such row: there are no pseudo-instructions (R79). -/
def instrOfAsm (f : AsmForm) : Option Instr :=
  match f.mnemonic with
  | .cls => noOperands .cls f.operands
  | .ret => noOperands .ret f.operands
  | .jp => jumpOperands f.operands
  | .call => callOperands f.operands
  | .se => registerWith (fun x nn => some (.seImm x nn)) (fun x y => some (.seReg x y)) f.operands
  | .sne => registerWith (fun x nn => some (.sneImm x nn)) (fun x y => some (.sneReg x y)) f.operands
  | .ld => loadOperands f.operands
  | .add => addOperands f.operands
  | .or => twoRegisters .or f.operands
  | .and => twoRegisters .and f.operands
  | .xor => twoRegisters .xor f.operands
  | .sub => twoRegisters .sub f.operands
  | .subn => twoRegisters .subn f.operands
  | .shr => twoRegisters .shr f.operands
  | .shl => twoRegisters .shl f.operands
  | .rnd => registerWith (fun x nn => some (.rnd x nn)) (fun _ _ => none) f.operands
  | .drw => drawOperands f.operands
  | .skp => oneRegister .skp f.operands
  | .sknp => oneRegister .sknp f.operands

/-! ## Programs -/

/-- A line of a program: an instruction, or the one directive, `DB b1, b2, …`, raw data bytes (R79). -/
inductive AsmLine where
  | instr (i : Instr)
  | db (bytes : List Byte)
  deriving DecidableEq, Repr

/-- The bytes a line stands for. -/
def AsmLine.bytes : AsmLine → List Byte
  | .instr i => encodeBytes i
  | .db bytes => bytes

/-- The bytes of a program, its lines laid end to end, as construction takes them (R80, R200). -/
def assemble (lines : List AsmLine) : List Byte := lines.flatMap AsmLine.bytes

/-! ## Text -/

/-- The conventional name (R79). -/
def Mnemonic.text : Mnemonic → String
  | .cls => "CLS"
  | .ret => "RET"
  | .jp => "JP"
  | .call => "CALL"
  | .se => "SE"
  | .sne => "SNE"
  | .ld => "LD"
  | .add => "ADD"
  | .or => "OR"
  | .and => "AND"
  | .xor => "XOR"
  | .sub => "SUB"
  | .subn => "SUBN"
  | .shr => "SHR"
  | .shl => "SHL"
  | .rnd => "RND"
  | .drw => "DRW"
  | .skp => "SKP"
  | .sknp => "SKNP"

/-- One hex digit, in capitals as `0x2A` (R79). -/
def hexDigit (d : Nibble) : String :=
  ["0", "1", "2", "3", "4", "5", "6", "7", "8", "9", "A", "B", "C", "D", "E", "F"].getD d.toNat ""

/-- A height, in decimal (R79). -/
def decimalOf (k : Nibble) : String :=
  ["0", "1", "2", "3", "4", "5", "6", "7", "8", "9", "10", "11", "12", "13", "14", "15"].getD k.toNat ""

/-- A byte as a hex number of two digits (R79, log entry 23). -/
def hexByte (b : Byte) : String := "0x" ++ hexDigit (b.extractLsb' 4 4) ++ hexDigit (b.extractLsb' 0 4)

/-- An address as a hex number of three digits (R79, log entry 23). -/
def hexAddr (a : Addr) : String :=
  "0x" ++ hexDigit (a.extractLsb' 8 4) ++ hexDigit (a.extractLsb' 4 4) ++ hexDigit (a.extractLsb' 0 4)

/-- An operand as R79 writes it. -/
def AsmOperand.text : AsmOperand → String
  | .v x => "V" ++ hexDigit x
  | .nn b => hexByte b
  | .nnn a => hexAddr a
  | .n k => decimalOf k
  | .index => "I"
  | .atIndex => "[I]"
  | .delay => "DT"
  | .sound => "ST"
  | .key => "K"
  | .glyph => "F"
  | .bcd => "B"

/-- Items between commas. -/
def commaList : List String → String
  | [] => ""
  | [a] => a
  | a :: rest => a ++ ", " ++ commaList rest

/-- A form as one line of text: `LD Vx, [I]` (R79). -/
def AsmForm.text (f : AsmForm) : String :=
  match f.operands with
  | [] => f.mnemonic.text
  | ops => f.mnemonic.text ++ " " ++ commaList (ops.map AsmOperand.text)

/-- A line of a program as text (R79; the data bytes in hex, log entry 23). -/
def AsmLine.text : AsmLine → String
  | .instr i => (asmOf i).text
  | .db bytes => "DB " ++ commaList (bytes.map hexByte)

end Sys2Proof
end

