-- ==== Sys2Proof/WellFormed.lean ====
section
/-! DEFINITION. What is well formed. An instruction needs no check: each operand's type is its field's width
(R71, R73), so an ill-formed `Instr` cannot be written. What the machine is given from outside does need one:
the program image of construction (70_reset_and_hazards.md R200). -/

namespace Sys2Proof

/-- R200: construction accepts a program of at most 3584 bytes, the empty one included. -/
def programWellFormed (program : List Byte) : Bool := decide (program.length ≤ 3584)

end Sys2Proof
end

