-- ==== Sys2Proof/Machine/Ports.lean ====
section
/-! DEFINITION. The host operations other than `step()` (60_exceptions.md R187–R190) and construction
(70_reset_and_hazards.md R200–R202). Each is one atomic function of the state, run between steps (R62). -/

namespace Sys2Proof.Machine

/-- `if t > 0 then t - 1` (R188). -/
def countDown (t : Byte) : Byte := if t = 0 then 0 else t - 1

/-- `tick_timers()` (R188). -/
def tickTimers (s : State) : State := (s.setDelay (countDown s.dt)).setSound (countDown s.st)

/-- `K[k] <- down`, and nothing for a key that does not exist (R189, D19). -/
def setKey (s : State) (k : Nat) (down : Bool) : State :=
  if h : k < 16 then s.setKeys (s.keys.set k down h) else s

/-- `key_down(k)` (R189). -/
def pressKey (s : State) (k : Nat) : State := setKey s k true

/-- `key_up(k)` (R189). -/
def releaseKey (s : State) (k : Nat) : State := setKey s k false

/-- The framebuffer read (R190). -/
def readFramebuffer (s : State) : Screen := s.fb

/-- The sound timer read (R190, D21). -/
def readSound (s : State) : Byte := s.st

/-- What a core is built with beside its program (R6, R202): the policies, `FONT_DATA` and `UNLOADED_FILL`. -/
structure BuildParameters where
  policies : Policies
  font : Vector Byte 80
  fill : Byte
  deriving DecidableEq, Repr

/-- The defaults of R6. -/
def defaultParameters : BuildParameters where
  policies := defaultPolicies
  font := Vector.ofFn fun k => fontData.getD k.val unloadedFill
  fill := unloadedFill

/-- R201: the byte at `a` after construction, the program over the fill, the font in its place. -/
def constructedByte (p : BuildParameters) (program : List Byte) (a : Nat) : Byte :=
  if 0x200 ≤ a then program.getD (a - 0x200) p.fill
  else if h : 0x050 ≤ a ∧ a < 0x0A0 then p.font[a - 0x050]'(by omega)
  else p.fill

/-- R201, R202: the state after construction, every component as at reset but memory, which holds the program, and the
policies the core is built with. -/
def constructedState (p : BuildParameters) (program : List Byte) : State :=
  { State.reset with mem := memoryOf (constructedByte p program), policies := p.policies }

/-- What `new` answers (R187, R200). -/
inductive Built where
  | core (s : State)
  | programTooLarge
  deriving DecidableEq, Repr

/-- `new(program_bytes)` (R200): a core, or no core for a program that is too large. -/
def construct (p : BuildParameters) (program : List Byte) : Built :=
  if programWellFormed program then .core (constructedState p program) else .programTooLarge

end Sys2Proof.Machine
end

