-- ==== Sys2Proof/Machine/Session.lean ====
section
/-! DEFINITION. The core as its host sees it (60_exceptions.md R187): any sequence of whole operations (20_memory.md
R62), steps among them, going on after a fault (R184). -/

namespace Sys2Proof.Machine

/-- The operations on a live core (R187). -/
inductive PortOp where
  | step
  | tickTimers
  | keyDown (k : Nat)
  | keyUp (k : Nat)
  | readFramebuffer
  | readSound
  deriving DecidableEq, Repr

/-- What an operation answers to the host (R187). `noMeaning` stands for a step the model refuses, of which there is
none. -/
inductive Reply where
  | ok
  | err (kind : FaultKind)
  | noMeaning
  | done
  | grid (fb : Screen)
  | sound (b : Byte)
  deriving DecidableEq, Repr

/-- `step()` as the host sees it (R90): `Ok` or `Err(kind)`, and the state it leaves (R97). -/
def hostStep (s : State) : Reply × State :=
  match Sys2Proof.Machine.step s with
  | .next t => (.ok, t)
  | .fault f => (.err f.kind, f.after)
  | .refused _ => (.noMeaning, s)

/-- One host operation on a live core (R187). -/
def serve (s : State) : PortOp → Reply × State
  | .step => hostStep s
  | .tickTimers => (.done, Sys2Proof.Machine.tickTimers s)
  | .keyDown k => (.done, pressKey s k)
  | .keyUp k => (.done, releaseKey s k)
  | .readFramebuffer => (.grid (Sys2Proof.Machine.readFramebuffer s), s)
  | .readSound => (.sound (Sys2Proof.Machine.readSound s), s)

/-- A sequence of host operations, one after another (R62, R209). -/
def serveAll (s : State) : List PortOp → State
  | [] => s
  | op :: rest => serveAll (serve s op).2 rest

end Sys2Proof.Machine
end

