-- ==== Sys2Proof/Safety.lean ====
section
/-! DEFINITION. The terms claims are stated in: the invariant of 10_state.md R37, the states a core can reach, what an
instruction may touch, and the end of a run. -/

namespace Sys2Proof.Machine

/-- The largest value PC reaches: 0x0FFF + 0xFF (R25, R37). -/
abbrev pcMax : Nat := 0x10FE

/-- The invariant of R37. The bounds on V, I, SP, DT and ST are the fields' types; what is left are the bounds on PC and on
the live stack slots, and the canonical form of memory. -/
structure State.Inv (s : State) : Prop where
  mem_wf : s.mem.wf = true
  pc_le : s.pc.toNat ≤ pcMax
  slot_le : ∀ k, k < s.sp.val → (s.slot k).toNat ≤ 0x1000

/-- The states some host brings a core to: built from any program, font, fill and policies, then any operations (R187, R200,
R209). -/
inductive Reachable : State → Prop where
  | built (p : BuildParameters) (program : List Byte) (s : State) (h : construct p program = .core s) : Reachable s
  | served (s : State) (op : PortOp) (h : Reachable s) : Reachable (serve s op).2

/-- What an operation may change, apart from PC. Everything defaults to nothing. -/
structure Footprint where
  /-- The general registers it may write. -/
  regs : Nibble → Prop := fun _ => False
  /-- Whether it may write `I`. -/
  index : Prop := False
  /-- The memory addresses it may write. -/
  mem : Nat → Prop := fun _ => False
  /-- Whether it may change the call stack. -/
  stack : Prop := False
  /-- Whether it may write the delay timer. -/
  delay : Prop := False
  /-- Whether it may write the sound timer. -/
  sound : Prop := False
  /-- Whether it may change the framebuffer. -/
  screen : Prop := False
  /-- Whether it may draw a random byte. -/
  draws : Prop := False

/-- `t` differs from `s` only in PC and in what the footprint names: every register, `I`, every byte of memory, every stack slot
and the depth, both timers and every cell outside it is as before, and the keypad and the policies always are (R31, D7). -/
structure Frame (f : Footprint) (s t : State) : Prop where
  regs : ∀ z, ¬ f.regs z → t.reg z = s.reg z
  index : ¬ f.index → t.i = s.i
  mem : ∀ a, ¬ f.mem a → t.byteAt a = s.byteAt a
  stack : ¬ f.stack → t.stack = s.stack ∧ t.sp = s.sp
  delay : ¬ f.delay → t.dt = s.dt
  sound : ¬ f.sound → t.st = s.st
  screen : ¬ f.screen → t.fb = s.fb
  keys : t.keys = s.keys
  policies : t.policies = s.policies
  draws : ¬ f.draws → t.draws = s.draws

/-- `VF` as a flag (R22). -/
def flagByte (b : Prop) [Decidable b] : Byte := if b then 1 else 0

/-- R22: the instructions that write VF as a flag. -/
def producesFlag : Instr → Bool
  | .addReg _ _ | .sub _ _ | .subn _ _ | .shr _ _ | .shl _ _ | .drw _ _ _ | .addIVx _ => true
  | .cls | .ret | .jp _ | .call _ | .seImm _ _ | .sneImm _ _ | .seReg _ _ | .sneReg _ _ => false
  | .ldImm _ _ | .addImm _ _ | .ldReg _ _ | .or _ _ | .and _ _ | .xor _ _ | .ldI _ | .jpV0 _ | .rnd _ _ => false
  | .skp _ | .sknp _ | .ldVxDt _ | .ldVxK _ | .ldDtVx _ | .ldStVx _ | .ldFVx _ | .ldBVx _ | .ldMemVx _ | .ldVxMem _ => false

/-- The start column of a draw (R162): V[x], reduced modulo 64 only under `Wrap`. -/
def drawColumn (s : State) (x : Nibble) : Nat :=
  if s.policies.drawStart = .wrap then (s.reg x).toNat % 64 else (s.reg x).toNat

/-- The start row of a draw (R162): V[y], reduced modulo 32 only under `Wrap`. -/
def drawTop (s : State) (y : Nibble) : Nat :=
  if s.policies.drawStart = .wrap then (s.reg y).toNat % 32 else (s.reg y).toNat

/-- The sprite that `Dxyn` draws from `s` has a 1 at cell (c, r): row `r - cy` of the sprite is the byte at
`I + (r - cy)`, and bit 7 of it is the leftmost column (R160). -/
def spriteOn (s : State) (x y n : Nibble) (c r : Nat) : Prop :=
  drawTop s y ≤ r ∧ r < drawTop s y + n.toNat ∧ drawColumn s x ≤ c ∧ c < drawColumn s x + 8 ∧
    (s.byteAt (s.i.toNat + (r - drawTop s y))).getLsbD (7 - (c - drawColumn s x)) = true

/-- The same state but for stale stack slots, those at index SP and above (R29). -/
def SameButStale (s t : State) : Prop :=
  t = s.setStack t.stack s.sp ∧ ∀ k, k < s.sp.val → t.slot k = s.slot k

/-- R210 (a): the word at PC is a jump to itself. -/
def atSelfJump (s : State) : Prop :=
  ∃ nnn, (fetchWord s).map decodeWord = some (.instr (.jp nnn)) ∧ s.pc.toNat = nnn.toNat

/-- R210: a run is ended at a jump to itself or at a step that returned `Err`. -/
def runEnded (s : State) (last : Reply) : Prop := atSelfJump s ∨ ∃ kind, last = .err kind

end Sys2Proof.Machine
end

