-- ==== Sys2Proof/Certificates/Slice0/Obligations.lean ====
section
/-! DEFINITION. What is to be proved of the model, from the numbered rules of spec/. In an instruction's statement `s` is the
state after the fetch advance (40_cycle.md R92), so `t.pc = s.pc` says that the instruction moves PC no further. -/

open Sys2Proof Sys2Proof.Machine

/-! ## Encoding and decoding (30_encoding.md) -/

/-- Decoding the word of any instruction, or its bytes with anything after them, gives it back (R71, R72, R76). -/
def Obligations.DecodeOfEncode : Prop :=
  ∀ i : Instr, decodeWord (encode i) = .instr i ∧
    ∀ rest, decodeBytes (encodeBytes i ++ rest) = .word (.instr i) rest

/-- A word that decodes to an instruction is that instruction's word, and one that decodes to `Unknown(u)` is `u` and no
instruction's word (R74, R75). -/
def Obligations.EncodeOfDecode : Prop :=
  ∀ w : Word, (∀ i, decodeWord w = .instr i → encode i = w) ∧
    ∀ u, decodeWord w = .unknown u → u = w ∧ ∀ i, encode i ≠ w

/-- At most one row of the opcode map matches a word; where one does the word decodes to that row's instruction, and
where none does it is `Unknown` (R74–R76; that no two rows overlap is marked as derived in R75). -/
def Obligations.DecodeFollowsOpcodeMap : Prop :=
  ∀ w : Word,
    (∀ r ∈ opcodeMap, ∀ r' ∈ opcodeMap, w &&& r.mask = r.bits → w &&& r'.mask = r'.bits → r = r') ∧
    (∀ r ∈ opcodeMap, w &&& r.mask = r.bits → ∃ i, decodeWord w = .instr i ∧ tagOf i = r.tag) ∧
    ((∀ r ∈ opcodeMap, w &&& r.mask ≠ r.bits) → decodeWord w = .unknown w)

/-- R77: the unknown space, by first nibble. -/
def Obligations.UnknownSpace : Prop :=
  ∀ w : Word, decodeWord w = .unknown w ↔
    (opField w = 0x0 ∧ nnnField w ≠ 0x0E0 ∧ nnnField w ≠ 0x0EE) ∨
    ((opField w = 0x5 ∨ opField w = 0x9) ∧ nField w ≠ 0x0) ∨
    (opField w = 0x8 ∧ nField w ∈ ([0x8, 0x9, 0xA, 0xB, 0xC, 0xD, 0xF] : List Nibble)) ∨
    (opField w = 0xE ∧ nnField w ∉ ([0x9E, 0xA1] : List Byte)) ∨
    (opField w = 0xF ∧ nnField w ∉ ([0x07, 0x0A, 0x15, 0x18, 0x1E, 0x29, 0x33, 0x55, 0x65] : List Byte))

/-- Words written out by hand from the patterns of R76, one or more for each family. -/
def Obligations.SampleWordsDecode : Prop :=
  decodeWord 0b0000000011100000 = .instr .cls ∧
  decodeWord 0b0000000011101110 = .instr .ret ∧
  decodeWord 0b0010001100000000 = .instr (.call 0x300) ∧
  decodeWord 0b1001000100100000 = .instr (.sneReg 0x1 0x2) ∧
  decodeWord 0b1000111100010100 = .instr (.addReg 0xF 0x1) ∧
  decodeWord 0b1000111100010111 = .instr (.subn 0xF 0x1) ∧
  decodeWord 0b1010001001010000 = .instr (.ldI 0x250) ∧
  decodeWord 0b1101000000010101 = .instr (.drw 0x0 0x1 0x5) ∧
  decodeWord 0b1110000110100001 = .instr (.sknp 0x1) ∧
  decodeWord 0b1111010100001010 = .instr (.ldVxK 0x5) ∧
  decodeWord 0b1111001001010101 = .instr (.ldMemVx 0x2) ∧
  decodeWord 0b0101000100100001 = .unknown 0x5121

/-- The written forms of R79, which are the spec's own decision D25: each instruction's form stands for that instruction alone.
`SHR` and `SHL` keep the operand `Vy` in their form and in their word, and it has no effect. -/
def Obligations.AssemblyForms : Prop :=
  (∀ i j : Instr, instrOfAsm (asmOf i) = some i ∧ (asmOf i = asmOf j → i = j)) ∧
  (∀ (f : AsmForm) (i : Instr), instrOfAsm f = some i → f = asmOf i) ∧
  ∀ x y y' : Nibble,
    (encode (.shr x y) = encode (.shr x y') → y = y') ∧ (encode (.shl x y) = encode (.shl x y') → y = y') ∧
    ∀ s : State, exec (.shr x y) s = exec (.shr x y') s ∧ exec (.shl x y) s = exec (.shl x y') s

/-! ## The step (40_cycle.md) -/

/-- R92: where the word at PC decodes to an instruction, the step is that instruction executed from the state with PC advanced by
2 and nothing else changed. -/
def Obligations.StepRunsDecodedInstruction : Prop :=
  ∀ (s : State) (i : Instr), s.pc.toNat + 1 ≤ 0xFFF →
    decodeWord (wordOfBytes (s.byteAt s.pc.toNat) (s.byteAt (s.pc.toNat + 1))) = .instr i →
    step s = exec i (s.setPc (s.pc + 2)) ∧ (s.pc + 2).toNat = s.pc.toNat + 2

/-- R91: a fetch reads the two bytes at PC and PC + 1 big-endian, so PC + 2 is at most 0x1000, and where PC + 1 is not in memory
the step ends with OutOfBoundsAddress and changes nothing. The fetch bound is the spec's own decision D3. -/
def Obligations.FetchReadsOrFaults : Prop :=
  ∀ s : State,
    (s.pc.toNat + 1 ≤ 0xFFF → ∃ w, fetchWord s = some w ∧
      w.toNat = (s.byteAt s.pc.toNat).toNat * 256 + (s.byteAt (s.pc.toNat + 1)).toNat ∧ (s.pc + 2).toNat ≤ 0x1000) ∧
    (s.pc.toNat + 1 > 0xFFF → step s = .fault (.outOfBoundsAddress s))

/-- R94: an unknown word does nothing but advance PC under `NoOp`, the default, and under `Fatal` raises UnknownOpcode with PC
advanced. -/
def Obligations.UnknownWordFollowsPolicy : Prop :=
  defaultParameters.policies.unknownOpcode = .noOp ∧
  ∀ (s : State) (w u : Word), fetchWord s = some w → decodeWord w = .unknown u →
    (s.policies.unknownOpcode = .noOp → step s = .next (s.setPc (s.pc + 2))) ∧
    (s.policies.unknownOpcode = .fatal → step s = .fault (.unknownOpcode (s.setPc (s.pc + 2))))

/-- A fault is precise: after a fetch fault nothing has changed, after any other only PC is advanced, and the host that goes on
does so from there. This is the spec's own decision D5, and the model's fault carries the state after it (log entries 1, 12). -/
def Obligations.FaultsArePrecise : Prop :=
  ∀ (s : State) (f : Fault), step s = .fault f →
    (f.after = if s.pc.toNat + 1 > 0xFFF then s else s.setPc (s.pc + 2)) ∧
    serve s .step = (.err f.kind, f.after)

/-- R180: which instructions raise which fault, and exactly when; and the faults of the fetch and of an unknown word. -/
def Obligations.FaultConditions : Prop :=
  (∀ (i : Instr) (s : State) (f : Fault), exec i s = .fault f ↔
    match i with
    | .call _ => s.sp.val = 16 ∧ f = .stackOverflow s
    | .ret => s.sp.val = 0 ∧ f = .stackUnderflow s
    | .drw _ _ n => (1 ≤ n.toNat ∧ s.i.toNat + n.toNat - 1 > 0xFFF) ∧ f = .outOfBoundsAddress s
    | .ldBVx _ => s.i.toNat > 0xFFD ∧ f = .outOfBoundsAddress s
    | .ldMemVx x => s.i.toNat + x.toNat > 0xFFF ∧ f = .outOfBoundsAddress s
    | .ldVxMem x => s.i.toNat + x.toNat > 0xFFF ∧ f = .outOfBoundsAddress s
    | _ => False) ∧
  (∀ s : State, s.pc.toNat ≥ 0xFFF → ∃ f, step s = .fault f ∧ f.kind = .outOfBoundsAddress) ∧
  (∀ (s : State) (w u : Word), fetchWord s = some w → decodeWord w = .unknown u →
    ((∃ f, step s = .fault f) ↔ s.policies.unknownOpcode = .fatal) ∧
    ∀ f, step s = .fault f → f.kind = .unknownOpcode)

/-- Every instruction of R76 has a meaning in every state, and so has every step: nothing is refused (R90, R97). -/
def Obligations.NothingIsRefused : Prop :=
  (∀ (i : Instr) (s : State) (r : Refusal), exec i s ≠ .refused r) ∧ ∀ (s : State) (r : Refusal), step s ≠ .refused r

/-- R26: how each instruction moves PC. `p` is the instruction's own address and `s` the state the step starts in. -/
def Obligations.ProgramCounterMovement : Prop :=
  (∀ (s t : State) (i : Instr), (fetchWord s).map decodeWord = some (.instr i) → step s = .next t →
    t.pc = match i with
      | .seImm x nn => if s.reg x = nn then s.pc + 4 else s.pc + 2
      | .sneImm x nn => if s.reg x ≠ nn then s.pc + 4 else s.pc + 2
      | .seReg x y => if s.reg x = s.reg y then s.pc + 4 else s.pc + 2
      | .sneReg x y => if s.reg x ≠ s.reg y then s.pc + 4 else s.pc + 2
      | .skp x => if s.keyDown (s.reg x).toNat then s.pc + 4 else s.pc + 2
      | .sknp x => if s.keyDown (s.reg x).toNat then s.pc + 2 else s.pc + 4
      | .jp nnn => BitVec.ofNat 16 nnn.toNat
      | .call nnn => BitVec.ofNat 16 nnn.toNat
      | .ret => s.slot (s.sp.val - 1)
      | .jpV0 nnn => BitVec.ofNat 16
          (if s.policies.bnnnMask = .mask12 then (nnn.toNat + (s.reg 0x0).toNat) % 4096 else nnn.toNat + (s.reg 0x0).toNat)
      | .ldVxK _ => if s.lowestKey = none then s.pc else s.pc + 2
      | _ => s.pc + 2) ∧
  (∀ (s t : State) (w : Word), (fetchWord s).map decodeWord = some (.unknown w) → step s = .next t → t.pc = s.pc + 2) ∧
  (∀ (s : State) (f : Fault), step s = .fault f → f.after.pc = if s.pc.toNat + 1 > 0xFFF then s.pc else s.pc + 2)

/-! ## Invariants (10_state.md R37) -/

/-- The reset state meets the invariant of R37. -/
def Obligations.InvariantAtReset : Prop := State.reset.Inv

/-- Every step keeps the invariant of R37 with memory's canonical form, whether it completes or faults, from every state that
meets it. -/
def Obligations.StepKeepsInvariant : Prop :=
  ∀ s : State, s.Inv → (∀ t, step s = .next t → t.Inv) ∧ ∀ f, step s = .fault f → f.after.Inv

/-- The invariants that 10_state.md section 10 derives: every state a host can bring a core to, from any program, font, fill and policies, meets every bound there, and VF
is 0 or 1 right after a flag-producing instruction. -/
def Obligations.ReachableStatesMeetInvariant : Prop :=
  ∀ s : State, Reachable s →
    s.Inv ∧ (∀ z, (s.reg z).toNat ≤ 255) ∧ s.i.toNat ≤ 0xFFF ∧ s.sp.val ≤ 16 ∧ s.dt.toNat ≤ 255 ∧ s.st.toNat ≤ 255 ∧
    ∀ (i : Instr) (t : State), (fetchWord s).map decodeWord = some (.instr i) → producesFlag i = true →
      step s = .next t → t.reg 0xF = 0 ∨ t.reg 0xF = 1

/-- The canonical form is one: two memories in form that read the same at every address are equal (R50, R61). -/
def Obligations.MemoryFormIsUnique : Prop :=
  ∀ m m' : Memory, m.wf = true → m'.wf = true → (∀ a, a ≤ 0xFFF → m.read a = m'.read a) → m = m'

/-! ## Whole-machine rules -/

/-- R22: VF is 0 or 1 after every flag-producing instruction, `x = 0xF` included, and any other instruction changes VF only
as its ordinary destination. -/
def Obligations.FlagRegisterRules : Prop :=
  ∀ (i : Instr) (s t : State), exec i s = .next t →
    (producesFlag i = true → t.reg 0xF = 0 ∨ t.reg 0xF = 1) ∧
    (producesFlag i = false → t.reg 0xF = s.reg 0xF ∨
      match i with
      | .ldImm x _ => x = 0xF
      | .addImm x _ => x = 0xF
      | .ldReg x _ => x = 0xF
      | .or x _ => x = 0xF
      | .and x _ => x = 0xF
      | .xor x _ => x = 0xF
      | .rnd x _ => x = 0xF
      | .ldVxDt x => x = 0xF
      | .ldVxK x => x = 0xF
      | .ldVxMem x => x = 0xF
      | _ => False)

/-- R59: after construction only Fx33 and Fx55 write memory, and no host operation does. -/
def Obligations.OnlyTwoInstructionsWriteMemory : Prop :=
  (∀ (i : Instr) (s t : State), exec i s = .next t → t.mem = s.mem ∨ (∃ x, i = .ldBVx x) ∨ ∃ x, i = .ldMemVx x) ∧
  (∀ (s t : State), step s = .next t → t.mem ≠ s.mem →
    ∃ x, (fetchWord s).map decodeWord = some (.instr (.ldBVx x)) ∨ (fetchWord s).map decodeWord = some (.instr (.ldMemVx x))) ∧
  ∀ (s : State) (op : PortOp), op ≠ .step → (serve s op).2.mem = s.mem

/-- No step moves the keypad or the policies, and the timers, the screen and the draw counter move only by the instructions
that name them (R30, R31, R32, R98). -/
def Obligations.DevicesMoveOnlyByTheirInstructions : Prop :=
  ∀ s t : State, step s = .next t →
    t.keys = s.keys ∧ t.policies = s.policies ∧
    (t.dt ≠ s.dt → ∃ x, (fetchWord s).map decodeWord = some (.instr (.ldDtVx x))) ∧
    (t.st ≠ s.st → ∃ x, (fetchWord s).map decodeWord = some (.instr (.ldStVx x))) ∧
    (t.fb ≠ s.fb → (fetchWord s).map decodeWord = some (.instr .cls) ∨
      ∃ x y n, (fetchWord s).map decodeWord = some (.instr (.drw x y n))) ∧
    (t.draws ≠ s.draws → ∃ x nn, (fetchWord s).map decodeWord = some (.instr (.rnd x nn)))

/-- R29: nothing reads a stale stack slot. Two states that differ only in slots at SP and above give the same outcome up to
such slots. -/
def Obligations.StaleSlotsAreNotRead : Prop :=
  ∀ s s' : State, SameButStale s s' →
    (∀ t, step s = .next t → ∃ t', step s' = .next t' ∧ SameButStale t t') ∧
    ∀ f, step s = .fault f → ∃ f', step s' = .fault f' ∧ f'.kind = f.kind ∧ SameButStale f.after f'.after

/-- No instruction reads ST (R30): whatever ST holds, a step gives the same state but for ST. -/
def Obligations.SoundTimerIsNotRead : Prop :=
  ∀ (s t : State) (b : Byte), step s = .next t → ∃ t', step (s.setSound b) = .next t' ∧ t'.setSound t.st = t

/-- R64: a fetch sees an earlier store. After Fx55 with x ≥ 1, the word at I is V0 ++ V1. -/
def Obligations.FetchSeesEarlierStore : Prop :=
  ∀ (s : State) (x : Nibble), s.mem.wf = true → 1 ≤ x.toNat → s.i.toNat + x.toNat ≤ 0xFFF →
    ∃ t, exec (.ldMemVx x) s = .next t ∧
      fetchWord (t.setPc (s.i.setWidth 16)) = some (wordOfBytes (s.reg 0x0) (s.reg 0x1))

/-! ## Control flow (41_control_flow.md) -/

/-- R102: JP. -/
def Obligations.JumpReplacesPc : Prop :=
  ∀ (nnn : Addr) (s : State), decodeWord (formatA 0x1 nnn) = .instr (.jp nnn) ∧
    ∃ t, exec (.jp nnn) s = .next t ∧ t.pc.toNat = nnn.toNat ∧ Frame {} s t

/-- JP_V0 (R108) under either value of `BNNN_MASK`, which is the spec's own decision D8. -/
def Obligations.JumpWithOffset : Prop :=
  ∀ (nnn : Addr) (s : State), decodeWord (formatA 0xB nnn) = .instr (.jpV0 nnn) ∧
    ∃ t, exec (.jpV0 nnn) s = .next t ∧ Frame {} s t ∧
      (s.policies.bnnnMask = .unmasked → t.pc.toNat = nnn.toNat + (s.reg 0x0).toNat) ∧
      (s.policies.bnnnMask = .mask12 → t.pc.toNat = (nnn.toNat + (s.reg 0x0).toNat) % 4096)

/-- R103: CALL pushes the PC it sees and jumps; at SP = 16 it raises StackOverflow. -/
def Obligations.CallPushesAndJumps : Prop :=
  ∀ (nnn : Addr) (s : State), decodeWord (formatA 0x2 nnn) = .instr (.call nnn) ∧
    (s.sp.val < 16 → ∃ t, exec (.call nnn) s = .next t ∧ t.pc.toNat = nnn.toNat ∧ t.sp.val = s.sp.val + 1 ∧
      t.slot s.sp.val = s.pc ∧ (∀ k, k < s.sp.val → t.slot k = s.slot k) ∧ Frame { stack := True } s t) ∧
    (s.sp.val = 16 → exec (.call nnn) s = .fault (.stackOverflow s))

/-- R101: RET pops into PC; at SP = 0 it raises StackUnderflow. -/
def Obligations.ReturnPops : Prop :=
  ∀ s : State, decodeWord 0x00EE = .instr .ret ∧
    (0 < s.sp.val → ∃ t, exec .ret s = .next t ∧ t.pc = s.slot (s.sp.val - 1) ∧ t.sp.val = s.sp.val - 1 ∧
      (∀ k, k < s.sp.val - 1 → t.slot k = s.slot k) ∧ Frame { stack := True } s t) ∧
    (s.sp.val = 0 → exec .ret s = .fault (.stackUnderflow s))

/-- The stale slots keep their value: a CALL leaves every slot above the one it pushes to, and a RET the one it pops and all above
it. This is the model's choice (log entry 9), where R29 leaves such slots unconstrained. -/
def Obligations.StaleSlotsKeepTheirValue : Prop :=
  ∀ s : State,
    (∀ nnn, s.sp.val < 16 → ∃ t, exec (.call nnn) s = .next t ∧ ∀ k, s.sp.val < k → t.slot k = s.slot k) ∧
    (0 < s.sp.val → ∃ t, exec .ret s = .next t ∧ ∀ k, s.sp.val - 1 ≤ k → t.slot k = s.slot k)

/-- A CALL and, from wherever PC is then, a RET bring back the PC after the call's own fetch advance and the depth (R103). -/
def Obligations.CallThenReturn : Prop :=
  ∀ (nnn : Addr) (q : Word) (s : State), s.sp.val < 16 →
    ∃ t u, exec (.call nnn) s = .next t ∧ exec .ret (t.setPc q) = .next u ∧ u.pc = s.pc ∧ u.sp = s.sp ∧
      (∀ k, k < s.sp.val → u.slot k = s.slot k) ∧ Frame { stack := True } s u

/-- Seventeen calls without a return: from an empty stack, sixteen steps that each fetch a CALL return Ok and the seventeenth
returns StackOverflow (R103). -/
def Obligations.SeventeenthCallOverflows : Prop :=
  ∀ f : Nat → State, (f 0).sp.val = 0 → (∀ k, k < 16 → f (k + 1) = (serve (f k) .step).2) →
    (∀ k, k ≤ 16 → ∃ nnn, (fetchWord (f k)).map decodeWord = some (.instr (.call nnn))) →
    (∀ k, k < 16 → (serve (f k) .step).1 = .ok) ∧ (serve (f 16) .step).1 = .err .stackOverflow

/-- R104–R107: the register skips. -/
def Obligations.RegisterSkips : Prop :=
  (∀ (x : Nibble) (nn : Byte) (s : State), decodeWord (formatXK 0x3 x nn) = .instr (.seImm x nn) ∧
    ∃ t, exec (.seImm x nn) s = .next t ∧ Frame {} s t ∧
      (s.reg x = nn → t.pc = s.pc + 2) ∧ (s.reg x ≠ nn → t.pc = s.pc)) ∧
  (∀ (x : Nibble) (nn : Byte) (s : State), decodeWord (formatXK 0x4 x nn) = .instr (.sneImm x nn) ∧
    ∃ t, exec (.sneImm x nn) s = .next t ∧ Frame {} s t ∧
      (s.reg x ≠ nn → t.pc = s.pc + 2) ∧ (s.reg x = nn → t.pc = s.pc)) ∧
  (∀ (x y : Nibble) (s : State), decodeWord (formatXY 0x5 x y 0x0) = .instr (.seReg x y) ∧
    ∃ t, exec (.seReg x y) s = .next t ∧ Frame {} s t ∧
      (s.reg x = s.reg y → t.pc = s.pc + 2) ∧ (s.reg x ≠ s.reg y → t.pc = s.pc)) ∧
  ∀ (x y : Nibble) (s : State), decodeWord (formatXY 0x9 x y 0x0) = .instr (.sneReg x y) ∧
    ∃ t, exec (.sneReg x y) s = .next t ∧ Frame {} s t ∧
      (s.reg x ≠ s.reg y → t.pc = s.pc + 2) ∧ (s.reg x = s.reg y → t.pc = s.pc)

/-- A jump to itself changes nothing: every further step is the same (R102). That a run counts as ended there is the
spec's own decision D24. -/
def Obligations.SelfJumpRepeats : Prop :=
  ∀ s : State, atSelfJump s → step s = .next s

/-! ## Register loads and the ALU (42_alu.md) -/

/-- R120, R122: LD_IMM and LD_REG. -/
def Obligations.RegisterLoads : Prop :=
  (∀ (x : Nibble) (nn : Byte) (s : State), decodeWord (formatXK 0x6 x nn) = .instr (.ldImm x nn) ∧
    ∃ t, exec (.ldImm x nn) s = .next t ∧ t.pc = s.pc ∧ t.reg x = nn ∧ Frame { regs := (· = x) } s t) ∧
  ∀ (x y : Nibble) (s : State), decodeWord (formatXY 0x8 x y 0x0) = .instr (.ldReg x y) ∧
    ∃ t, exec (.ldReg x y) s = .next t ∧ t.pc = s.pc ∧ t.reg x = s.reg y ∧ Frame { regs := (· = x) } s t

/-- R121: ADD_IMM wraps modulo 256 and writes no flag. -/
def Obligations.AddImmediateWraps : Prop :=
  ∀ (x : Nibble) (nn : Byte) (s : State), decodeWord (formatXK 0x7 x nn) = .instr (.addImm x nn) ∧
    ∃ t, exec (.addImm x nn) s = .next t ∧ t.pc = s.pc ∧
      (t.reg x).toNat = ((s.reg x).toNat + nn.toNat) % 256 ∧ Frame { regs := (· = x) } s t

/-- OR, AND and XOR, bit by bit (R123–R125). That VF is not written unless it is the destination is the spec's own decision D9. -/
def Obligations.BitwiseLogic : Prop :=
  (∀ (x y : Nibble) (s : State), decodeWord (formatXY 0x8 x y 0x1) = .instr (.or x y) ∧
    ∃ t, exec (.or x y) s = .next t ∧ t.pc = s.pc ∧ Frame { regs := (· = x) } s t ∧
      ∀ k, (t.reg x).getLsbD k = ((s.reg x).getLsbD k || (s.reg y).getLsbD k)) ∧
  (∀ (x y : Nibble) (s : State), decodeWord (formatXY 0x8 x y 0x2) = .instr (.and x y) ∧
    ∃ t, exec (.and x y) s = .next t ∧ t.pc = s.pc ∧ Frame { regs := (· = x) } s t ∧
      ∀ k, (t.reg x).getLsbD k = ((s.reg x).getLsbD k && (s.reg y).getLsbD k)) ∧
  ∀ (x y : Nibble) (s : State), decodeWord (formatXY 0x8 x y 0x3) = .instr (.xor x y) ∧
    ∃ t, exec (.xor x y) s = .next t ∧ t.pc = s.pc ∧ Frame { regs := (· = x) } s t ∧
      ∀ k, (t.reg x).getLsbD k = ((s.reg x).getLsbD k ^^ (s.reg y).getLsbD k)

/-- R126: ADD_REG, the sum modulo 256 and the carry in VF, which is written last. -/
def Obligations.AddRegisterCarry : Prop :=
  ∀ (x y : Nibble) (s : State), decodeWord (formatXY 0x8 x y 0x4) = .instr (.addReg x y) ∧
    ∃ t, exec (.addReg x y) s = .next t ∧ t.pc = s.pc ∧ Frame { regs := fun z => z = x ∨ z = 0xF } s t ∧
      (x ≠ 0xF → (t.reg x).toNat = ((s.reg x).toNat + (s.reg y).toNat) % 256) ∧
      t.reg 0xF = flagByte ((s.reg x).toNat + (s.reg y).toNat > 255)

/-- R127, R128: SUB and SUBN, the difference modulo 256 and NOT borrow in VF, which is written last. -/
def Obligations.SubtractNotBorrow : Prop :=
  (∀ (x y : Nibble) (s : State), decodeWord (formatXY 0x8 x y 0x5) = .instr (.sub x y) ∧
    ∃ t, exec (.sub x y) s = .next t ∧ t.pc = s.pc ∧ Frame { regs := fun z => z = x ∨ z = 0xF } s t ∧
      (x ≠ 0xF → ((t.reg x).toNat : Int) = (((s.reg x).toNat : Int) - ((s.reg y).toNat : Int)) % 256) ∧
      t.reg 0xF = flagByte (¬ (s.reg x).toNat < (s.reg y).toNat)) ∧
  ∀ (x y : Nibble) (s : State), decodeWord (formatXY 0x8 x y 0x7) = .instr (.subn x y) ∧
    ∃ t, exec (.subn x y) s = .next t ∧ t.pc = s.pc ∧ Frame { regs := fun z => z = x ∨ z = 0xF } s t ∧
      (x ≠ 0xF → ((t.reg x).toNat : Int) = (((s.reg y).toNat : Int) - ((s.reg x).toNat : Int)) % 256) ∧
      t.reg 0xF = flagByte (¬ (s.reg y).toNat < (s.reg x).toNat)

/-- R129, R130: SHR and SHL of V[x] by one, whatever y is, and the bit shifted out in VF, which is written last. -/
def Obligations.ShiftsByOne : Prop :=
  (∀ (x y : Nibble) (s : State), decodeWord (formatXY 0x8 x y 0x6) = .instr (.shr x y) ∧
    ∃ t, exec (.shr x y) s = .next t ∧ t.pc = s.pc ∧ Frame { regs := fun z => z = x ∨ z = 0xF } s t ∧
      (x ≠ 0xF → (t.reg x).toNat = (s.reg x).toNat / 2) ∧ (t.reg 0xF).toNat = (s.reg x).toNat % 2) ∧
  ∀ (x y : Nibble) (s : State), decodeWord (formatXY 0x8 x y 0xE) = .instr (.shl x y) ∧
    ∃ t, exec (.shl x y) s = .next t ∧ t.pc = s.pc ∧ Frame { regs := fun z => z = x ∨ z = 0xF } s t ∧
      (x ≠ 0xF → (t.reg x).toNat = (s.reg x).toNat * 2 % 256) ∧ (t.reg 0xF).toNat = (s.reg x).toNat / 128

/-- R131: RND, a fresh draw AND the immediate. The draw is the free value that this state's draw number names (log entry 2),
and the next draw has another number. -/
def Obligations.RandomByteMasked : Prop :=
  ∀ (x : Nibble) (nn : Byte) (s : State), decodeWord (formatXK 0xC x nn) = .instr (.rnd x nn) ∧
    ∃ t, exec (.rnd x nn) s = .next t ∧ t.pc = s.pc ∧ Frame { regs := (· = x), draws := True } s t ∧
      (∀ k, (t.reg x).getLsbD k = ((Config.rand8 s.draws).getLsbD k && nn.getLsbD k)) ∧ t.draws = s.draws + 1

/-! ## Index register and memory blocks (43_index_memory.md) -/

/-- R141, R143: LD_I and LD_F_VX. -/
def Obligations.IndexLoads : Prop :=
  (∀ (nnn : Addr) (s : State), decodeWord (formatA 0xA nnn) = .instr (.ldI nnn) ∧
    ∃ t, exec (.ldI nnn) s = .next t ∧ t.pc = s.pc ∧ t.i = nnn ∧ Frame { index := True } s t) ∧
  ∀ (x : Nibble) (s : State), decodeWord (formatXK 0xF x 0x29) = .instr (.ldFVx x) ∧
    ∃ t, exec (.ldFVx x) s = .next t ∧ t.pc = s.pc ∧ t.i.toNat = 0x50 + (s.reg x).toNat * 5 ∧ Frame { index := True } s t

/-- R142: ADD_I_VX, the sum masked to 12 bits and VF = 1 exactly when it reaches 4096. -/
def Obligations.AddToIndex : Prop :=
  ∀ (x : Nibble) (s : State), decodeWord (formatXK 0xF x 0x1E) = .instr (.addIVx x) ∧
    ∃ t, exec (.addIVx x) s = .next t ∧ t.pc = s.pc ∧ Frame { regs := (· = 0xF), index := True } s t ∧
      t.i.toNat = (s.i.toNat + (s.reg x).toNat) % 4096 ∧
      t.reg 0xF = flagByte (s.i.toNat + (s.reg x).toNat ≥ 4096)

/-- R144: LD_B_VX stores the three decimal digits at I, I + 1, I + 2; past the top of memory it faults and writes nothing. -/
def Obligations.StoreDecimalDigits : Prop :=
  ∀ (x : Nibble) (s : State), decodeWord (formatXK 0xF x 0x33) = .instr (.ldBVx x) ∧
    (s.mem.wf = true → s.i.toNat ≤ 0xFFD → ∃ t, exec (.ldBVx x) s = .next t ∧ t.pc = s.pc ∧
      (t.byteAt s.i.toNat).toNat = (s.reg x).toNat / 100 ∧
      (t.byteAt (s.i.toNat + 1)).toNat = (s.reg x).toNat / 10 % 10 ∧
      (t.byteAt (s.i.toNat + 2)).toNat = (s.reg x).toNat % 10 ∧
      Frame { mem := fun a => s.i.toNat ≤ a ∧ a ≤ s.i.toNat + 2 } s t) ∧
    (s.i.toNat ≥ 0xFFE → exec (.ldBVx x) s = .fault (.outOfBoundsAddress s))

/-- LD_MEM_VX (R145), under either value of `LOADSTORE_ADVANCES_I`, which is the spec's own decision D10, stores V0..Vx from
I on; past the top of memory it faults and writes nothing. -/
def Obligations.StoreRegisterBlock : Prop :=
  ∀ (x : Nibble) (s : State), decodeWord (formatXK 0xF x 0x55) = .instr (.ldMemVx x) ∧
    (s.mem.wf = true → s.i.toNat + x.toNat ≤ 0xFFF → ∃ t, exec (.ldMemVx x) s = .next t ∧ t.pc = s.pc ∧
      (∀ z : Nibble, z.toNat ≤ x.toNat → t.byteAt (s.i.toNat + z.toNat) = s.reg z) ∧
      (s.policies.loadStoreAdvancesI = true → t.i.toNat = (s.i.toNat + x.toNat + 1) % 4096) ∧
      Frame { index := s.policies.loadStoreAdvancesI = true,
              mem := fun a => s.i.toNat ≤ a ∧ a ≤ s.i.toNat + x.toNat } s t) ∧
    (s.i.toNat + x.toNat > 0xFFF → exec (.ldMemVx x) s = .fault (.outOfBoundsAddress s))

/-- LD_VX_MEM (R146), under either value of `LOADSTORE_ADVANCES_I` (D10), loads V0..Vx from I on; past the top of memory it faults and writes nothing. -/
def Obligations.LoadRegisterBlock : Prop :=
  ∀ (x : Nibble) (s : State), decodeWord (formatXK 0xF x 0x65) = .instr (.ldVxMem x) ∧
    (s.i.toNat + x.toNat ≤ 0xFFF → ∃ t, exec (.ldVxMem x) s = .next t ∧ t.pc = s.pc ∧
      (∀ z : Nibble, z.toNat ≤ x.toNat → t.reg z = s.byteAt (s.i.toNat + z.toNat)) ∧
      (s.policies.loadStoreAdvancesI = true → t.i.toNat = (s.i.toNat + x.toNat + 1) % 4096) ∧
      Frame { regs := fun z => z.toNat ≤ x.toNat, index := s.policies.loadStoreAdvancesI = true } s t) ∧
    (s.i.toNat + x.toNat > 0xFFF → exec (.ldVxMem x) s = .fault (.outOfBoundsAddress s))

/-! ## Display (44_display.md) -/

/-- R161: CLS turns every cell off. -/
def Obligations.ClearScreen : Prop :=
  ∀ s : State, decodeWord 0x00E0 = .instr .cls ∧
    ∃ t, exec .cls s = .next t ∧ t.pc = s.pc ∧ (∀ c r, c < 64 → r < 32 → t.cell c r = false) ∧ Frame { screen := True } s t

/-- DRW (R162–R165) inverts exactly the cells of the grid where the sprite has a 1, VF is 1 exactly when one of them was
on, and a sprite that runs past the top of memory faults and draws nothing. The bit order of a row is the spec's own decision D12
(log entry 11), the start of a draw D11 under either value of its parameter, the bounds D13. -/
def Obligations.DrawTogglesCells : Prop :=
  ∀ (x y n : Nibble) (s : State), decodeWord (formatXY 0xD x y n) = .instr (.drw x y n) ∧
    (n.toNat = 0 ∨ s.i.toNat + n.toNat - 1 ≤ 0xFFF → ∃ t, exec (.drw x y n) s = .next t ∧ t.pc = s.pc ∧
      (∀ c r, c < 64 → r < 32 →
        (spriteOn s x y n c r → t.cell c r = !s.cell c r) ∧ (¬ spriteOn s x y n c r → t.cell c r = s.cell c r)) ∧
      ((∃ c r, c < 64 ∧ r < 32 ∧ spriteOn s x y n c r ∧ s.cell c r = true) → t.reg 0xF = 1) ∧
      ((∀ c r, c < 64 → r < 32 → spriteOn s x y n c r → s.cell c r = false) → t.reg 0xF = 0) ∧
      Frame { regs := (· = 0xF), screen := True } s t) ∧
    (n.toNat ≠ 0 → s.i.toNat + n.toNat - 1 > 0xFFF → exec (.drw x y n) s = .fault (.outOfBoundsAddress s))

/-- R165: VF = 1 exactly when some cell of the grid was turned from on to off, and 0 otherwise, whenever a DRW does not fault. -/
def Obligations.CollisionFlag : Prop :=
  ∀ (x y n : Nibble) (s : State), n.toNat = 0 ∨ s.i.toNat + n.toNat - 1 ≤ 0xFFF →
    ∃ t, exec (.drw x y n) s = .next t ∧
      ((∃ c r, c < 64 ∧ r < 32 ∧ s.cell c r = true ∧ t.cell c r = false) → t.reg 0xF = 1) ∧
      ((∀ c r, c < 64 → r < 32 → s.cell c r = true → t.cell c r = true) → t.reg 0xF = 0)

/-- Drawing the same sprite at the same place again restores the screen, and the second draw's VF is 1 exactly when the first
turned a cell on (R163, R165). The coordinates must not be held in VF, which the first draw overwrites. -/
def Obligations.DrawTwiceRestoresScreen : Prop :=
  ∀ (x y n : Nibble) (s : State), x ≠ 0xF → y ≠ 0xF → n.toNat = 0 ∨ s.i.toNat + n.toNat - 1 ≤ 0xFFF →
    ∃ t u, exec (.drw x y n) s = .next t ∧ exec (.drw x y n) t = .next u ∧
      (∀ c r, c < 64 → r < 32 → u.cell c r = s.cell c r) ∧
      (u.reg 0xF = 1 ↔ ∃ c r, c < 64 ∧ r < 32 ∧ s.cell c r = false ∧ t.cell c r = true)

/-! ## Keypad and timers (45_timers_keypad.md, 60_exceptions.md) -/

/-- SKP skips exactly when V[x] is a key that is down, SKNP exactly when it is not (R171, R172). That no key 16 or above is down is
the spec's own decision D14. -/
def Obligations.KeySkips : Prop :=
  (∀ (x : Nibble) (s : State), decodeWord (formatXK 0xE x 0x9E) = .instr (.skp x) ∧
    ∃ t, exec (.skp x) s = .next t ∧ Frame {} s t ∧
      (∀ h : (s.reg x).toNat < 16, t.pc = if s.keys[(s.reg x).toNat] then s.pc + 2 else s.pc) ∧
      (16 ≤ (s.reg x).toNat → t.pc = s.pc)) ∧
  ∀ (x : Nibble) (s : State), decodeWord (formatXK 0xE x 0xA1) = .instr (.sknp x) ∧
    ∃ t, exec (.sknp x) s = .next t ∧ Frame {} s t ∧
      (∀ h : (s.reg x).toNat < 16, t.pc = if s.keys[(s.reg x).toNat] then s.pc else s.pc + 2) ∧
      (16 ≤ (s.reg x).toNat → t.pc = s.pc + 2)

/-- R173, R175, R176: reading DT, and setting DT and ST. -/
def Obligations.TimerInstructions : Prop :=
  (∀ (x : Nibble) (s : State), decodeWord (formatXK 0xF x 0x07) = .instr (.ldVxDt x) ∧
    ∃ t, exec (.ldVxDt x) s = .next t ∧ t.pc = s.pc ∧ t.reg x = s.dt ∧ Frame { regs := (· = x) } s t) ∧
  (∀ (x : Nibble) (s : State), decodeWord (formatXK 0xF x 0x15) = .instr (.ldDtVx x) ∧
    ∃ t, exec (.ldDtVx x) s = .next t ∧ t.pc = s.pc ∧ t.dt = s.reg x ∧ Frame { delay := True } s t) ∧
  ∀ (x : Nibble) (s : State), decodeWord (formatXK 0xF x 0x18) = .instr (.ldStVx x) ∧
    ∃ t, exec (.ldStVx x) s = .next t ∧ t.pc = s.pc ∧ t.st = s.reg x ∧ Frame { sound := True } s t

/-- R174: LD_VX_K loads the lowest key down, and with none down moves PC back by 2 and changes nothing else. -/
def Obligations.KeyWait : Prop :=
  ∀ (x : Nibble) (s : State), decodeWord (formatXK 0xF x 0x0A) = .instr (.ldVxK x) ∧
    (∀ (k : Nat) (h : k < 16), s.keys[k] = true → (∀ (j : Nat) (hj : j < k), s.keys[j] = false) →
      ∃ t, exec (.ldVxK x) s = .next t ∧ t.pc = s.pc ∧ (t.reg x).toNat = k ∧ Frame { regs := (· = x) } s t) ∧
    ((∀ (k : Nat) (h : k < 16), s.keys[k] = false) →
      ∃ t, exec (.ldVxK x) s = .next t ∧ t.pc = s.pc - 2 ∧ Frame {} s t)

/-- A blocked LD_VX_K step returns to the very state it started in, and a key delivered before the next step completes it
(R174, R193). -/
def Obligations.BlockedKeyWaitRepeats : Prop :=
  ∀ (x : Nibble) (s : State), (fetchWord s).map decodeWord = some (.instr (.ldVxK x)) →
    (∀ (k : Nat) (h : k < 16), s.keys[k] = false) →
    step s = .next s ∧
    ∀ k, k < 16 → ∃ t, step (serve s (.keyDown k)).2 = .next t ∧ t.pc = s.pc + 2 ∧ (t.reg x).toNat = k

/-- R188: `tick_timers()` lowers each timer by 1 while it is above 0, and touches nothing else. -/
def Obligations.TickTimers : Prop :=
  ∀ s : State, (serve s .tickTimers).1 = .done ∧
    (serve s .tickTimers).2.dt.toNat = s.dt.toNat - 1 ∧ (serve s .tickTimers).2.st.toNat = s.st.toNat - 1 ∧
    (serve s .tickTimers).2.pc = s.pc ∧ Frame { delay := True, sound := True } s (serve s .tickTimers).2

/-- `key_down(k)` and `key_up(k)` set and clear K[k] and nothing else, and `key_down` is idempotent (R189). That they do nothing
for a key that does not exist is the spec's own decision D19. -/
def Obligations.KeyEvents : Prop :=
  ∀ (s : State) (k : Nat),
    (∀ h : k < 16, serve s (.keyDown k) = (.done, s.setKeys (s.keys.set k true h)) ∧
      serve s (.keyUp k) = (.done, s.setKeys (s.keys.set k false h))) ∧
    (16 ≤ k → serve s (.keyDown k) = (.done, s) ∧ serve s (.keyUp k) = (.done, s)) ∧
    (serve (serve s (.keyDown k)).2 (.keyDown k)).2 = (serve s (.keyDown k)).2

/-- R190: the two reads return the grid and ST, and change nothing. -/
def Obligations.OutputReads : Prop :=
  ∀ s : State, serve s .readSound = (.sound s.st, s) ∧
    ∃ fb, serve s .readFramebuffer = (.grid fb, s) ∧ ∀ c r, c < 64 → r < 32 → cellOf fb c r = s.cell c r

/-- After a fetch fault every further step faults again and changes nothing, however often the host calls it (R184, which is the
spec's own decision D6). -/
def Obligations.FetchFaultRepeats : Prop :=
  ∀ (s : State) (n : Nat), s.pc.toNat + 1 > 0xFFF →
    serve s .step = (.err .outOfBoundsAddress, s) ∧ serveAll s (List.replicate n .step) = s

/-! ## Construction and reset (70_reset_and_hazards.md) -/

/-- Construction from any program, font, fill and policies, which no later operation changes (R200–R202). A program over 3584
bytes gives no core. The zero registers are the spec's own decision D17 (log entry 6), the fill D16, the fixed policies D7. -/
def Obligations.ConstructionState : Prop :=
  ∀ (p : BuildParameters) (program : List Byte),
    (program.length > 3584 → construct p program = .programTooLarge) ∧
    (program.length ≤ 3584 → ∃ s, construct p program = .core s ∧
      (∀ (k : Nat) (h : k < program.length), s.byteAt (0x200 + k) = program[k]) ∧
      (∀ (k : Nat) (h : k < 80), s.byteAt (0x050 + k) = p.font[k]) ∧
      (∀ a, a ≤ 0xFFF → ¬ (0x050 ≤ a ∧ a ≤ 0x09F) → ¬ (0x200 ≤ a ∧ a < 0x200 + program.length) → s.byteAt a = p.fill) ∧
      s.pc = 0x200 ∧ (∀ c r, c < 64 → r < 32 → s.cell c r = false) ∧ (∀ z, s.reg z = 0x00) ∧ s.i = 0x000 ∧
      s.sp.val = 0 ∧ (∀ k, k < 16 → s.slot k = 0x0000) ∧ s.dt = 0 ∧ s.st = 0 ∧
      (∀ k, k < 16 → s.keyDown k = false) ∧ s.policies = p.policies ∧
      ∀ ops, (serveAll s ops).policies = p.policies)

/-- R203: the first step after construction fetches the word at 0x200 and 0x201, made of the fill where the program does not
reach, and with no program and the default parameters it passes over the unknown word 0x0000. -/
def Obligations.FirstFetchAfterConstruction : Prop :=
  (∀ (p : BuildParameters) (program : List Byte), program.length ≤ 3584 → ∃ s, construct p program = .core s ∧ s.pc = 0x200 ∧
    fetchWord s = some (wordOfBytes (program.getD 0 p.fill) (program.getD 1 p.fill))) ∧
  ∃ s, construct defaultParameters [] = .core s ∧ fetchWord s = some 0x0000 ∧ decodeWord 0x0000 = .unknown 0x0000 ∧
    step s = .next (s.setPc 0x202)

/-- The reset state is what construction gives for the empty program and the default parameters, zero registers by the spec's own decision
D17 among them (log entries 5, 6). -/
def Obligations.ResetIsEmptyConstruction : Prop :=
  construct defaultParameters [] = .core State.reset
end

