-- ==== Sys2Proof/Laws/Assembly.lean ====
section
/-! SUPPORT. What assembling a program gives (30_encoding.md R79, R80): its lines' bytes, one after another. -/

namespace Sys2Proof

@[simp] theorem assemble_nil : assemble [] = [] := rfl

@[simp] theorem assemble_instr (i : Instr) (rest : List AsmLine) : assemble (.instr i :: rest) = encodeBytes i ++ assemble rest := rfl

@[simp] theorem assemble_db (bytes : List Byte) (rest : List AsmLine) : assemble (.db bytes :: rest) = bytes ++ assemble rest := rfl

theorem assemble_append (a b : List AsmLine) : assemble (a ++ b) = assemble a ++ assemble b := List.flatMap_append

/-- R70: every instruction is two bytes. -/
theorem length_assemble_instrs (l : List Instr) : (assemble (l.map AsmLine.instr)).length = 2 * l.length := by
  induction l with
  | nil => rfl
  | cons i rest ih => simp [ih, encodeBytes]; omega

end Sys2Proof
end

