-- ==== Sys2Proof/Laws/Decode.lean ====
section
/-! SUPPORT. The fields of a word built by a format (30_encoding.md R71, R72), and a word built back from its fields. -/

namespace Sys2Proof

/-! ## Format `XY` -/

@[simp] theorem opField_formatXY (o x y s : Nibble) : opField (formatXY o x y s) = o := by
  apply BitVec.eq_of_getLsbD_eq
  intro k hk
  show (BitVec.extractLsb' 12 4 (o ++ x ++ y ++ s)).getLsbD _ = _
  simp only [BitVec.getLsbD_extractLsb', BitVec.getLsbD_append, hk, decide_true, Bool.true_and]
  split_ifs <;> first | omega | (congr 1; omega)

@[simp] theorem xField_formatXY (o x y s : Nibble) : xField (formatXY o x y s) = x := by
  apply BitVec.eq_of_getLsbD_eq
  intro k hk
  show (BitVec.extractLsb' 8 4 (o ++ x ++ y ++ s)).getLsbD _ = _
  simp only [BitVec.getLsbD_extractLsb', BitVec.getLsbD_append, hk, decide_true, Bool.true_and]
  split_ifs <;> first | omega | (congr 1; omega)

@[simp] theorem yField_formatXY (o x y s : Nibble) : yField (formatXY o x y s) = y := by
  apply BitVec.eq_of_getLsbD_eq
  intro k hk
  show (BitVec.extractLsb' 4 4 (o ++ x ++ y ++ s)).getLsbD _ = _
  simp only [BitVec.getLsbD_extractLsb', BitVec.getLsbD_append, hk, decide_true, Bool.true_and]
  split_ifs <;> first | omega | (congr 1; omega)

@[simp] theorem nField_formatXY (o x y s : Nibble) : nField (formatXY o x y s) = s := by
  apply BitVec.eq_of_getLsbD_eq
  intro k hk
  show (BitVec.extractLsb' 0 4 (o ++ x ++ y ++ s)).getLsbD _ = _
  simp only [BitVec.getLsbD_extractLsb', BitVec.getLsbD_append, hk, decide_true, Bool.true_and]
  split_ifs <;> first | omega | (congr 1; omega)

/-! ## Format `XK` -/

@[simp] theorem opField_formatXK (o x : Nibble) (nn : Byte) : opField (formatXK o x nn) = o := by
  apply BitVec.eq_of_getLsbD_eq
  intro k hk
  show (BitVec.extractLsb' 12 4 (o ++ x ++ nn)).getLsbD _ = _
  simp only [BitVec.getLsbD_extractLsb', BitVec.getLsbD_append, hk, decide_true, Bool.true_and]
  split_ifs <;> first | omega | (congr 1; omega)

@[simp] theorem xField_formatXK (o x : Nibble) (nn : Byte) : xField (formatXK o x nn) = x := by
  apply BitVec.eq_of_getLsbD_eq
  intro k hk
  show (BitVec.extractLsb' 8 4 (o ++ x ++ nn)).getLsbD _ = _
  simp only [BitVec.getLsbD_extractLsb', BitVec.getLsbD_append, hk, decide_true, Bool.true_and]
  split_ifs <;> first | omega | (congr 1; omega)

@[simp] theorem nnField_formatXK (o x : Nibble) (nn : Byte) : nnField (formatXK o x nn) = nn := by
  apply BitVec.eq_of_getLsbD_eq
  intro k hk
  show (BitVec.extractLsb' 0 8 (o ++ x ++ nn)).getLsbD _ = _
  simp only [BitVec.getLsbD_extractLsb', BitVec.getLsbD_append, hk, decide_true, Bool.true_and]
  split_ifs <;> first | omega | (congr 1; omega)

/-! ## Format `A` -/

@[simp] theorem opField_formatA (o : Nibble) (a : Addr) : opField (formatA o a) = o := by
  apply BitVec.eq_of_getLsbD_eq
  intro k hk
  show (BitVec.extractLsb' 12 4 (o ++ a)).getLsbD _ = _
  simp only [BitVec.getLsbD_extractLsb', BitVec.getLsbD_append, hk, decide_true, Bool.true_and]
  split_ifs <;> first | omega | (congr 1; omega)

@[simp] theorem nnnField_formatA (o : Nibble) (a : Addr) : nnnField (formatA o a) = a := by
  apply BitVec.eq_of_getLsbD_eq
  intro k hk
  show (BitVec.extractLsb' 0 12 (o ++ a)).getLsbD _ = _
  simp only [BitVec.getLsbD_extractLsb', BitVec.getLsbD_append, hk, decide_true, Bool.true_and]
  split_ifs <;> first | omega | (congr 1; omega)

/-! ## A word from its own fields -/

theorem formatXY_fields (w : Word) : formatXY (opField w) (xField w) (yField w) (nField w) = w := by
  show opField w ++ xField w ++ yField w ++ nField w = w
  apply BitVec.eq_of_getLsbD_eq
  intro k hk
  simp only [opField, xField, yField, nField, BitVec.getLsbD_append, BitVec.getLsbD_extractLsb']
  by_cases h1 : k < 4
  · simp [h1]
  · by_cases h2 : k < 8
    · simp [h1, show k - 4 < 4 by omega, show 4 + (k - 4) = k by omega]
    · by_cases h3 : k < 12
      · simp [h1, show ¬ k - 4 < 4 by omega, show k - 4 - 4 < 4 by omega, show 8 + (k - 4 - 4) = k by omega]
      · simp [h1, show ¬ k - 4 < 4 by omega, show ¬ k - 4 - 4 < 4 by omega, show k - 4 - 4 - 4 < 4 by omega,
          show 12 + (k - 4 - 4 - 4) = k by omega]

theorem formatXK_fields (w : Word) : formatXK (opField w) (xField w) (nnField w) = w := by
  show opField w ++ xField w ++ nnField w = w
  apply BitVec.eq_of_getLsbD_eq
  intro k hk
  simp only [opField, xField, nnField, BitVec.getLsbD_append, BitVec.getLsbD_extractLsb']
  by_cases h2 : k < 8
  · simp [h2]
  · by_cases h3 : k < 12
    · simp [h2, show k - 8 < 4 by omega, show 8 + (k - 8) = k by omega]
    · simp [h2, show ¬ k - 8 < 4 by omega, show k - 8 - 4 < 4 by omega, show 12 + (k - 8 - 4) = k by omega]

theorem formatA_fields (w : Word) : formatA (opField w) (nnnField w) = w := by
  show opField w ++ nnnField w = w
  apply BitVec.eq_of_getLsbD_eq
  intro k hk
  simp only [opField, nnnField, BitVec.getLsbD_append, BitVec.getLsbD_extractLsb']
  by_cases h3 : k < 12
  · simp [h3]
  · simp [h3, show k - 12 < 4 by omega, show 12 + (k - 12) = k by omega]

/-! ## The bytes of a word (R53) -/

@[simp] theorem highByte_wordOfBytes (high low : Byte) : highByte (wordOfBytes high low) = high := by
  apply BitVec.eq_of_getLsbD_eq
  intro k hk
  show (BitVec.extractLsb' 8 8 (high ++ low)).getLsbD _ = _
  simp only [BitVec.getLsbD_extractLsb', BitVec.getLsbD_append, hk, decide_true, Bool.true_and]
  split_ifs <;> first | omega | (congr 1; omega)

@[simp] theorem lowByte_wordOfBytes (high low : Byte) : lowByte (wordOfBytes high low) = low := by
  apply BitVec.eq_of_getLsbD_eq
  intro k hk
  show (BitVec.extractLsb' 0 8 (high ++ low)).getLsbD _ = _
  simp only [BitVec.getLsbD_extractLsb', BitVec.getLsbD_append, hk, decide_true, Bool.true_and]
  split_ifs <;> first | omega | (congr 1; omega)

theorem wordOfBytes_bytes (w : Word) : wordOfBytes (highByte w) (lowByte w) = w := by
  show highByte w ++ lowByte w = w
  apply BitVec.eq_of_getLsbD_eq
  intro k hk
  simp only [highByte, lowByte, BitVec.getLsbD_append, BitVec.getLsbD_extractLsb']
  by_cases h : k < 8
  · simp [h]
  · simp [h, show k - 8 < 8 by omega, show 8 + (k - 8) = k by omega]

end Sys2Proof
end

