-- ==== Sys2Proof/Laws/Memory.lean ====
section
/-! SUPPORT. What memory's operations do (20_memory.md R52–R61): a read after a write, and that every operation keeps
the canonical form. -/

namespace Sys2Proof.Machine

/-- What it says of a list in form that its head is a listed cell. -/
theorem risingFrom_cons (low k : Nat) (c : Byte) (rest : Memory) :
    risingFrom low ((k, c) :: rest) = true ↔
      low ≤ k ∧ k < 4096 ∧ c ≠ initialByte k ∧ risingFrom (k + 1) rest = true := by
  simp [risingFrom, and_assoc]

/-- A list in form from one address on is in form from any lower one. -/
theorem risingFrom_of_le {low low' : Nat} {m : Memory} (h : risingFrom low m = true) (hl : low' ≤ low) :
    risingFrom low' m = true := by
  cases m with
  | nil => rfl
  | cons e rest =>
    obtain ⟨h1, h2⟩ := (risingFrom_cons ..).1 h
    exact (risingFrom_cons ..).2 ⟨by omega, h2⟩

/-- Below its first address a list in form lists nothing. -/
theorem read_below {low a : Nat} {m : Memory} (h : risingFrom low m = true) (ha : a < low) :
    m.read a = initialByte a := by
  induction m generalizing low with
  | nil => rfl
  | cons e rest ih =>
    obtain ⟨h1, -, -, h4⟩ := (risingFrom_cons ..).1 h
    have : a ≠ e.1 := by omega
    rw [Memory.read, if_neg this]
    exact ih h4 (by omega)

/-- A write keeps the form. -/
theorem risingFrom_write {low a : Nat} {m : Memory} (b : Byte) (h : risingFrom low m = true) (hl : low ≤ a)
    (ha : a < 4096) : risingFrom low (m.write a b) = true := by
  induction m generalizing low with
  | nil =>
    unfold Memory.write
    split
    · rfl
    · exact (risingFrom_cons ..).2 ⟨hl, ha, ‹_›, rfl⟩
  | cons e rest ih =>
    obtain ⟨k, c⟩ := e
    obtain ⟨h1, h2, h3, h4⟩ := (risingFrom_cons ..).1 h
    unfold Memory.write
    split
    · split
      · exact h
      · exact (risingFrom_cons ..).2 ⟨hl, ha, ‹_›, (risingFrom_cons ..).2 ⟨by omega, h2, h3, h4⟩⟩
    · split
      · split
        · exact risingFrom_of_le h4 (by omega)
        · exact (risingFrom_cons ..).2 ⟨hl, ha, ‹_›, risingFrom_of_le h4 (by omega)⟩
      · exact (risingFrom_cons ..).2 ⟨h1, h2, h3, ih h4 (by omega)⟩

/-- R61: a read gives the byte last written there, and a write leaves every other address alone. -/
theorem read_write_of_rising {low a : Nat} {m : Memory} (b : Byte) (h : risingFrom low m = true) (a' : Nat) :
    (m.write a b).read a' = if a' = a then b else m.read a' := by
  induction m generalizing low with
  | nil =>
    unfold Memory.write
    by_cases hb : b = initialByte a
    · rw [if_pos hb]
      by_cases e : a' = a <;> simp [e, hb, Memory.read]
    · rw [if_neg hb]
      by_cases e : a' = a <;> simp [e, Memory.read]
  | cons e rest ih =>
    obtain ⟨k, c⟩ := e
    obtain ⟨h1, h2, h3, h4⟩ := (risingFrom_cons ..).1 h
    unfold Memory.write
    by_cases hlt : a < k
    · rw [if_pos hlt]
      have hbelow : Memory.read ((k, c) :: rest) a = initialByte a :=
        read_below ((risingFrom_cons ..).2 ⟨by omega, h2, h3, h4⟩ : risingFrom k ((k, c) :: rest) = true) hlt
      by_cases hb : b = initialByte a
      · rw [if_pos hb]
        by_cases e : a' = a
        · rw [if_pos e, e, hbelow, hb]
        · rw [if_neg e]
      · rw [if_neg hb, Memory.read]
    · rw [if_neg hlt]
      by_cases hk : a = k
      · subst hk
        rw [if_pos rfl]
        by_cases hb : b = initialByte a
        · rw [if_pos hb]
          by_cases e : a' = a
          · rw [if_pos e, e, read_below h4 (by omega), hb]
          · simp [e, Memory.read]
        · rw [if_neg hb]
          by_cases e : a' = a <;> simp [e, Memory.read]
      · rw [if_neg hk]
        by_cases e : a' = k
        · have : a' ≠ a := fun h => hk (h.symm.trans e)
          simp [Memory.read, e, Ne.symm hk]
        · simp [Memory.read, e, ih h4]

/-- R61 for a memory in form. -/
theorem Memory.read_write {m : Memory} (h : m.wf = true) (a : Nat) (b : Byte) (a' : Nat) :
    (m.write a b).read a' = if a' = a then b else m.read a' :=
  read_write_of_rising b h a'

/-- A write keeps memory in form. -/
theorem Memory.wf_write {m : Memory} (h : m.wf = true) {a : Nat} (ha : a < 4096) (b : Byte) :
    (m.write a b).wf = true :=
  risingFrom_write b h (Nat.zero_le a) ha

/-- Writing a run of bytes keeps memory in form. -/
theorem wf_writeBytes {m : Memory} (h : m.wf = true) {a : Nat} {l : List Byte} (ha : a + l.length ≤ 4096) :
    (writeBytes m a l).wf = true := by
  induction l generalizing m a with
  | nil => exact h
  | cons b l ih =>
    simp only [List.length_cons] at ha
    exact ih (Memory.wf_write h (by omega) b) (by omega)

/-- What an address reads as after a run of bytes is written: the byte of the run for it, or what it held. -/
theorem read_writeBytes {m : Memory} (h : m.wf = true) {a : Nat} {l : List Byte} (ha : a + l.length ≤ 4096)
    (a' : Nat) :
    (writeBytes m a l).read a' =
      if hr : a ≤ a' ∧ a' - a < l.length then l[a' - a]'hr.2 else m.read a' := by
  induction l generalizing m a with
  | nil => simp [writeBytes]
  | cons b l ih =>
    simp only [List.length_cons] at ha
    rw [writeBytes, ih (Memory.wf_write h (by omega) b) (by omega), Memory.read_write h]
    by_cases h1 : a + 1 ≤ a' ∧ a' - (a + 1) < l.length
    · have h2 : a ≤ a' ∧ a' - a < (b :: l).length := by simp only [List.length_cons]; omega
      have h3 : a' - a = a' - (a + 1) + 1 := by omega
      rw [dif_pos h1, dif_pos h2]
      simp [h3]
    · rw [dif_neg h1]
      by_cases h4 : a' = a
      · rw [if_pos h4, dif_pos (by simp only [List.length_cons]; omega)]
        simp [h4]
      · rw [if_neg h4, dif_neg (by simp only [List.length_cons]; omega)]

/-- The listing of a function's bytes from `low` on, as `memoryOf` makes it. -/
theorem rising_listing (f : Nat → Byte) (n low : Nat) (hn : low + n ≤ 4096) :
    risingFrom low ((List.range' low n).filterMap fun a => if f a = initialByte a then none else some (a, f a)) = true ∧
      ∀ a, Memory.read ((List.range' low n).filterMap fun a => if f a = initialByte a then none else some (a, f a)) a =
        if low ≤ a ∧ a < low + n then f a else initialByte a := by
  induction n generalizing low with
  | zero => exact ⟨rfl, fun a => by rw [if_neg (by omega)]; rfl⟩
  | succ n ih =>
    obtain ⟨ih1, ih2⟩ := ih (low + 1) (by omega)
    rw [List.range'_succ, List.filterMap_cons]
    by_cases hf : f low = initialByte low
    · simp only [hf, if_true]
      refine ⟨risingFrom_of_le ih1 (by omega), fun a => ?_⟩
      rw [ih2]
      by_cases e : a = low
      · subst e
        rw [if_neg (by omega), if_pos (by omega), hf]
      · by_cases h : low + 1 ≤ a ∧ a < low + 1 + n
        · rw [if_pos h, if_pos (by omega)]
        · rw [if_neg h, if_neg (by omega)]
    · simp only [hf, if_false]
      refine ⟨(risingFrom_cons ..).2 ⟨Nat.le_refl _, by omega, hf, ih1⟩, fun a => ?_⟩
      rw [Memory.read, ih2]
      by_cases e : a = low
      · rw [if_pos e, if_pos (by omega), e]
      · rw [if_neg e]
        by_cases h : low + 1 ≤ a ∧ a < low + 1 + n
        · rw [if_pos h, if_pos (by omega)]
        · rw [if_neg h, if_neg (by omega)]

/-- `memoryOf f` is in form. -/
theorem wf_memoryOf (f : Nat → Byte) : (memoryOf f).wf = true := by
  have := (rising_listing f 4096 0 (by decide)).1
  rw [← List.range_eq_range'] at this
  unfold memoryOf
  exact this

/-- `memoryOf f` reads as `f` at every address of memory. -/
theorem read_memoryOf (f : Nat → Byte) {a : Nat} (ha : a < 4096) : (memoryOf f).read a = f a := by
  have := (rising_listing f 4096 0 (by decide)).2 a
  rw [← List.range_eq_range', if_pos (by omega)] at this
  unfold memoryOf
  exact this

end Sys2Proof.Machine
end

