-- ==== Sys2Proof/Laws/State.lean ====
section
/-! SUPPORT. One lemma per field and per update of the state, true by unfolding, so that no later proof unfolds a record
update; the same for the accessors `reg`, `byteAt`, `slot`, `cell` and `keyDown`. -/

namespace Sys2Proof.Machine

@[simp] theorem State.setMem_mem (s : State) (m : Memory) : (s.setMem m).mem = m := rfl
@[simp] theorem State.setMem_v (s : State) (m : Memory) : (s.setMem m).v = s.v := rfl
@[simp] theorem State.setMem_i (s : State) (m : Memory) : (s.setMem m).i = s.i := rfl
@[simp] theorem State.setMem_pc (s : State) (m : Memory) : (s.setMem m).pc = s.pc := rfl
@[simp] theorem State.setMem_stack (s : State) (m : Memory) : (s.setMem m).stack = s.stack := rfl
@[simp] theorem State.setMem_sp (s : State) (m : Memory) : (s.setMem m).sp = s.sp := rfl
@[simp] theorem State.setMem_dt (s : State) (m : Memory) : (s.setMem m).dt = s.dt := rfl
@[simp] theorem State.setMem_st (s : State) (m : Memory) : (s.setMem m).st = s.st := rfl
@[simp] theorem State.setMem_keys (s : State) (m : Memory) : (s.setMem m).keys = s.keys := rfl
@[simp] theorem State.setMem_fb (s : State) (m : Memory) : (s.setMem m).fb = s.fb := rfl
@[simp] theorem State.setMem_policies (s : State) (m : Memory) : (s.setMem m).policies = s.policies := rfl
@[simp] theorem State.setMem_draws (s : State) (m : Memory) : (s.setMem m).draws = s.draws := rfl
@[simp] theorem State.setMem_reg (s : State) (m : Memory) (z : Nibble) : (s.setMem m).reg z = s.reg z := rfl
@[simp] theorem State.setMem_slot (s : State) (m : Memory) (n : Nat) : (s.setMem m).slot n = s.slot n := rfl
@[simp] theorem State.setMem_cell (s : State) (m : Memory) (c r : Nat) : (s.setMem m).cell c r = s.cell c r := rfl
@[simp] theorem State.setMem_keyDown (s : State) (m : Memory) (n : Nat) : (s.setMem m).keyDown n = s.keyDown n := rfl

@[simp] theorem State.setReg_mem (s : State) (x : Nibble) (b : Byte) : (s.setReg x b).mem = s.mem := rfl
@[simp] theorem State.setReg_v (s : State) (x : Nibble) (b : Byte) : (s.setReg x b).v = s.v.set x.toNat b x.isLt := rfl
@[simp] theorem State.setReg_i (s : State) (x : Nibble) (b : Byte) : (s.setReg x b).i = s.i := rfl
@[simp] theorem State.setReg_pc (s : State) (x : Nibble) (b : Byte) : (s.setReg x b).pc = s.pc := rfl
@[simp] theorem State.setReg_stack (s : State) (x : Nibble) (b : Byte) : (s.setReg x b).stack = s.stack := rfl
@[simp] theorem State.setReg_sp (s : State) (x : Nibble) (b : Byte) : (s.setReg x b).sp = s.sp := rfl
@[simp] theorem State.setReg_dt (s : State) (x : Nibble) (b : Byte) : (s.setReg x b).dt = s.dt := rfl
@[simp] theorem State.setReg_st (s : State) (x : Nibble) (b : Byte) : (s.setReg x b).st = s.st := rfl
@[simp] theorem State.setReg_keys (s : State) (x : Nibble) (b : Byte) : (s.setReg x b).keys = s.keys := rfl
@[simp] theorem State.setReg_fb (s : State) (x : Nibble) (b : Byte) : (s.setReg x b).fb = s.fb := rfl
@[simp] theorem State.setReg_policies (s : State) (x : Nibble) (b : Byte) : (s.setReg x b).policies = s.policies := rfl
@[simp] theorem State.setReg_draws (s : State) (x : Nibble) (b : Byte) : (s.setReg x b).draws = s.draws := rfl
@[simp] theorem State.setReg_byteAt (s : State) (x : Nibble) (b : Byte) (n : Nat) : (s.setReg x b).byteAt n = s.byteAt n := rfl
@[simp] theorem State.setReg_slot (s : State) (x : Nibble) (b : Byte) (n : Nat) : (s.setReg x b).slot n = s.slot n := rfl
@[simp] theorem State.setReg_cell (s : State) (x : Nibble) (b : Byte) (c r : Nat) : (s.setReg x b).cell c r = s.cell c r := rfl
@[simp] theorem State.setReg_keyDown (s : State) (x : Nibble) (b : Byte) (n : Nat) : (s.setReg x b).keyDown n = s.keyDown n := rfl

@[simp] theorem State.setFlag_mem (s : State) (flag : Bool) : (s.setFlag flag).mem = s.mem := rfl
@[simp] theorem State.setFlag_i (s : State) (flag : Bool) : (s.setFlag flag).i = s.i := rfl
@[simp] theorem State.setFlag_pc (s : State) (flag : Bool) : (s.setFlag flag).pc = s.pc := rfl
@[simp] theorem State.setFlag_stack (s : State) (flag : Bool) : (s.setFlag flag).stack = s.stack := rfl
@[simp] theorem State.setFlag_sp (s : State) (flag : Bool) : (s.setFlag flag).sp = s.sp := rfl
@[simp] theorem State.setFlag_dt (s : State) (flag : Bool) : (s.setFlag flag).dt = s.dt := rfl
@[simp] theorem State.setFlag_st (s : State) (flag : Bool) : (s.setFlag flag).st = s.st := rfl
@[simp] theorem State.setFlag_keys (s : State) (flag : Bool) : (s.setFlag flag).keys = s.keys := rfl
@[simp] theorem State.setFlag_fb (s : State) (flag : Bool) : (s.setFlag flag).fb = s.fb := rfl
@[simp] theorem State.setFlag_policies (s : State) (flag : Bool) : (s.setFlag flag).policies = s.policies := rfl
@[simp] theorem State.setFlag_draws (s : State) (flag : Bool) : (s.setFlag flag).draws = s.draws := rfl
@[simp] theorem State.setFlag_byteAt (s : State) (flag : Bool) (n : Nat) : (s.setFlag flag).byteAt n = s.byteAt n := rfl
@[simp] theorem State.setFlag_slot (s : State) (flag : Bool) (n : Nat) : (s.setFlag flag).slot n = s.slot n := rfl
@[simp] theorem State.setFlag_cell (s : State) (flag : Bool) (c r : Nat) : (s.setFlag flag).cell c r = s.cell c r := rfl
@[simp] theorem State.setFlag_keyDown (s : State) (flag : Bool) (n : Nat) : (s.setFlag flag).keyDown n = s.keyDown n := rfl

@[simp] theorem State.setIndex_mem (s : State) (a : Addr) : (s.setIndex a).mem = s.mem := rfl
@[simp] theorem State.setIndex_v (s : State) (a : Addr) : (s.setIndex a).v = s.v := rfl
@[simp] theorem State.setIndex_i (s : State) (a : Addr) : (s.setIndex a).i = a := rfl
@[simp] theorem State.setIndex_pc (s : State) (a : Addr) : (s.setIndex a).pc = s.pc := rfl
@[simp] theorem State.setIndex_stack (s : State) (a : Addr) : (s.setIndex a).stack = s.stack := rfl
@[simp] theorem State.setIndex_sp (s : State) (a : Addr) : (s.setIndex a).sp = s.sp := rfl
@[simp] theorem State.setIndex_dt (s : State) (a : Addr) : (s.setIndex a).dt = s.dt := rfl
@[simp] theorem State.setIndex_st (s : State) (a : Addr) : (s.setIndex a).st = s.st := rfl
@[simp] theorem State.setIndex_keys (s : State) (a : Addr) : (s.setIndex a).keys = s.keys := rfl
@[simp] theorem State.setIndex_fb (s : State) (a : Addr) : (s.setIndex a).fb = s.fb := rfl
@[simp] theorem State.setIndex_policies (s : State) (a : Addr) : (s.setIndex a).policies = s.policies := rfl
@[simp] theorem State.setIndex_draws (s : State) (a : Addr) : (s.setIndex a).draws = s.draws := rfl
@[simp] theorem State.setIndex_reg (s : State) (a : Addr) (z : Nibble) : (s.setIndex a).reg z = s.reg z := rfl
@[simp] theorem State.setIndex_byteAt (s : State) (a : Addr) (n : Nat) : (s.setIndex a).byteAt n = s.byteAt n := rfl
@[simp] theorem State.setIndex_slot (s : State) (a : Addr) (n : Nat) : (s.setIndex a).slot n = s.slot n := rfl
@[simp] theorem State.setIndex_cell (s : State) (a : Addr) (c r : Nat) : (s.setIndex a).cell c r = s.cell c r := rfl
@[simp] theorem State.setIndex_keyDown (s : State) (a : Addr) (n : Nat) : (s.setIndex a).keyDown n = s.keyDown n := rfl

@[simp] theorem State.setPc_mem (s : State) (t : Word) : (s.setPc t).mem = s.mem := rfl
@[simp] theorem State.setPc_v (s : State) (t : Word) : (s.setPc t).v = s.v := rfl
@[simp] theorem State.setPc_i (s : State) (t : Word) : (s.setPc t).i = s.i := rfl
@[simp] theorem State.setPc_pc (s : State) (t : Word) : (s.setPc t).pc = t := rfl
@[simp] theorem State.setPc_stack (s : State) (t : Word) : (s.setPc t).stack = s.stack := rfl
@[simp] theorem State.setPc_sp (s : State) (t : Word) : (s.setPc t).sp = s.sp := rfl
@[simp] theorem State.setPc_dt (s : State) (t : Word) : (s.setPc t).dt = s.dt := rfl
@[simp] theorem State.setPc_st (s : State) (t : Word) : (s.setPc t).st = s.st := rfl
@[simp] theorem State.setPc_keys (s : State) (t : Word) : (s.setPc t).keys = s.keys := rfl
@[simp] theorem State.setPc_fb (s : State) (t : Word) : (s.setPc t).fb = s.fb := rfl
@[simp] theorem State.setPc_policies (s : State) (t : Word) : (s.setPc t).policies = s.policies := rfl
@[simp] theorem State.setPc_draws (s : State) (t : Word) : (s.setPc t).draws = s.draws := rfl
@[simp] theorem State.setPc_reg (s : State) (t : Word) (z : Nibble) : (s.setPc t).reg z = s.reg z := rfl
@[simp] theorem State.setPc_byteAt (s : State) (t : Word) (n : Nat) : (s.setPc t).byteAt n = s.byteAt n := rfl
@[simp] theorem State.setPc_slot (s : State) (t : Word) (n : Nat) : (s.setPc t).slot n = s.slot n := rfl
@[simp] theorem State.setPc_cell (s : State) (t : Word) (c r : Nat) : (s.setPc t).cell c r = s.cell c r := rfl
@[simp] theorem State.setPc_keyDown (s : State) (t : Word) (n : Nat) : (s.setPc t).keyDown n = s.keyDown n := rfl

@[simp] theorem State.advancePc_mem (s : State) : (s.advancePc).mem = s.mem := rfl
@[simp] theorem State.advancePc_v (s : State) : (s.advancePc).v = s.v := rfl
@[simp] theorem State.advancePc_i (s : State) : (s.advancePc).i = s.i := rfl
@[simp] theorem State.advancePc_pc (s : State) : (s.advancePc).pc = s.pc + 2 := rfl
@[simp] theorem State.advancePc_stack (s : State) : (s.advancePc).stack = s.stack := rfl
@[simp] theorem State.advancePc_sp (s : State) : (s.advancePc).sp = s.sp := rfl
@[simp] theorem State.advancePc_dt (s : State) : (s.advancePc).dt = s.dt := rfl
@[simp] theorem State.advancePc_st (s : State) : (s.advancePc).st = s.st := rfl
@[simp] theorem State.advancePc_keys (s : State) : (s.advancePc).keys = s.keys := rfl
@[simp] theorem State.advancePc_fb (s : State) : (s.advancePc).fb = s.fb := rfl
@[simp] theorem State.advancePc_policies (s : State) : (s.advancePc).policies = s.policies := rfl
@[simp] theorem State.advancePc_draws (s : State) : (s.advancePc).draws = s.draws := rfl
@[simp] theorem State.advancePc_reg (s : State) (z : Nibble) : (s.advancePc).reg z = s.reg z := rfl
@[simp] theorem State.advancePc_byteAt (s : State) (n : Nat) : (s.advancePc).byteAt n = s.byteAt n := rfl
@[simp] theorem State.advancePc_slot (s : State) (n : Nat) : (s.advancePc).slot n = s.slot n := rfl
@[simp] theorem State.advancePc_cell (s : State) (c r : Nat) : (s.advancePc).cell c r = s.cell c r := rfl
@[simp] theorem State.advancePc_keyDown (s : State) (n : Nat) : (s.advancePc).keyDown n = s.keyDown n := rfl

@[simp] theorem State.setDelay_mem (s : State) (b : Byte) : (s.setDelay b).mem = s.mem := rfl
@[simp] theorem State.setDelay_v (s : State) (b : Byte) : (s.setDelay b).v = s.v := rfl
@[simp] theorem State.setDelay_i (s : State) (b : Byte) : (s.setDelay b).i = s.i := rfl
@[simp] theorem State.setDelay_pc (s : State) (b : Byte) : (s.setDelay b).pc = s.pc := rfl
@[simp] theorem State.setDelay_stack (s : State) (b : Byte) : (s.setDelay b).stack = s.stack := rfl
@[simp] theorem State.setDelay_sp (s : State) (b : Byte) : (s.setDelay b).sp = s.sp := rfl
@[simp] theorem State.setDelay_dt (s : State) (b : Byte) : (s.setDelay b).dt = b := rfl
@[simp] theorem State.setDelay_st (s : State) (b : Byte) : (s.setDelay b).st = s.st := rfl
@[simp] theorem State.setDelay_keys (s : State) (b : Byte) : (s.setDelay b).keys = s.keys := rfl
@[simp] theorem State.setDelay_fb (s : State) (b : Byte) : (s.setDelay b).fb = s.fb := rfl
@[simp] theorem State.setDelay_policies (s : State) (b : Byte) : (s.setDelay b).policies = s.policies := rfl
@[simp] theorem State.setDelay_draws (s : State) (b : Byte) : (s.setDelay b).draws = s.draws := rfl
@[simp] theorem State.setDelay_reg (s : State) (b : Byte) (z : Nibble) : (s.setDelay b).reg z = s.reg z := rfl
@[simp] theorem State.setDelay_byteAt (s : State) (b : Byte) (n : Nat) : (s.setDelay b).byteAt n = s.byteAt n := rfl
@[simp] theorem State.setDelay_slot (s : State) (b : Byte) (n : Nat) : (s.setDelay b).slot n = s.slot n := rfl
@[simp] theorem State.setDelay_cell (s : State) (b : Byte) (c r : Nat) : (s.setDelay b).cell c r = s.cell c r := rfl
@[simp] theorem State.setDelay_keyDown (s : State) (b : Byte) (n : Nat) : (s.setDelay b).keyDown n = s.keyDown n := rfl

@[simp] theorem State.setSound_mem (s : State) (b : Byte) : (s.setSound b).mem = s.mem := rfl
@[simp] theorem State.setSound_v (s : State) (b : Byte) : (s.setSound b).v = s.v := rfl
@[simp] theorem State.setSound_i (s : State) (b : Byte) : (s.setSound b).i = s.i := rfl
@[simp] theorem State.setSound_pc (s : State) (b : Byte) : (s.setSound b).pc = s.pc := rfl
@[simp] theorem State.setSound_stack (s : State) (b : Byte) : (s.setSound b).stack = s.stack := rfl
@[simp] theorem State.setSound_sp (s : State) (b : Byte) : (s.setSound b).sp = s.sp := rfl
@[simp] theorem State.setSound_dt (s : State) (b : Byte) : (s.setSound b).dt = s.dt := rfl
@[simp] theorem State.setSound_st (s : State) (b : Byte) : (s.setSound b).st = b := rfl
@[simp] theorem State.setSound_keys (s : State) (b : Byte) : (s.setSound b).keys = s.keys := rfl
@[simp] theorem State.setSound_fb (s : State) (b : Byte) : (s.setSound b).fb = s.fb := rfl
@[simp] theorem State.setSound_policies (s : State) (b : Byte) : (s.setSound b).policies = s.policies := rfl
@[simp] theorem State.setSound_draws (s : State) (b : Byte) : (s.setSound b).draws = s.draws := rfl
@[simp] theorem State.setSound_reg (s : State) (b : Byte) (z : Nibble) : (s.setSound b).reg z = s.reg z := rfl
@[simp] theorem State.setSound_byteAt (s : State) (b : Byte) (n : Nat) : (s.setSound b).byteAt n = s.byteAt n := rfl
@[simp] theorem State.setSound_slot (s : State) (b : Byte) (n : Nat) : (s.setSound b).slot n = s.slot n := rfl
@[simp] theorem State.setSound_cell (s : State) (b : Byte) (c r : Nat) : (s.setSound b).cell c r = s.cell c r := rfl
@[simp] theorem State.setSound_keyDown (s : State) (b : Byte) (n : Nat) : (s.setSound b).keyDown n = s.keyDown n := rfl

@[simp] theorem State.setKeys_mem (s : State) (k : Vector Bool 16) : (s.setKeys k).mem = s.mem := rfl
@[simp] theorem State.setKeys_v (s : State) (k : Vector Bool 16) : (s.setKeys k).v = s.v := rfl
@[simp] theorem State.setKeys_i (s : State) (k : Vector Bool 16) : (s.setKeys k).i = s.i := rfl
@[simp] theorem State.setKeys_pc (s : State) (k : Vector Bool 16) : (s.setKeys k).pc = s.pc := rfl
@[simp] theorem State.setKeys_stack (s : State) (k : Vector Bool 16) : (s.setKeys k).stack = s.stack := rfl
@[simp] theorem State.setKeys_sp (s : State) (k : Vector Bool 16) : (s.setKeys k).sp = s.sp := rfl
@[simp] theorem State.setKeys_dt (s : State) (k : Vector Bool 16) : (s.setKeys k).dt = s.dt := rfl
@[simp] theorem State.setKeys_st (s : State) (k : Vector Bool 16) : (s.setKeys k).st = s.st := rfl
@[simp] theorem State.setKeys_keys (s : State) (k : Vector Bool 16) : (s.setKeys k).keys = k := rfl
@[simp] theorem State.setKeys_fb (s : State) (k : Vector Bool 16) : (s.setKeys k).fb = s.fb := rfl
@[simp] theorem State.setKeys_policies (s : State) (k : Vector Bool 16) : (s.setKeys k).policies = s.policies := rfl
@[simp] theorem State.setKeys_draws (s : State) (k : Vector Bool 16) : (s.setKeys k).draws = s.draws := rfl
@[simp] theorem State.setKeys_reg (s : State) (k : Vector Bool 16) (z : Nibble) : (s.setKeys k).reg z = s.reg z := rfl
@[simp] theorem State.setKeys_byteAt (s : State) (k : Vector Bool 16) (n : Nat) : (s.setKeys k).byteAt n = s.byteAt n := rfl
@[simp] theorem State.setKeys_slot (s : State) (k : Vector Bool 16) (n : Nat) : (s.setKeys k).slot n = s.slot n := rfl
@[simp] theorem State.setKeys_cell (s : State) (k : Vector Bool 16) (c r : Nat) : (s.setKeys k).cell c r = s.cell c r := rfl

@[simp] theorem State.countDraw_mem (s : State) : (s.countDraw).mem = s.mem := rfl
@[simp] theorem State.countDraw_v (s : State) : (s.countDraw).v = s.v := rfl
@[simp] theorem State.countDraw_i (s : State) : (s.countDraw).i = s.i := rfl
@[simp] theorem State.countDraw_pc (s : State) : (s.countDraw).pc = s.pc := rfl
@[simp] theorem State.countDraw_stack (s : State) : (s.countDraw).stack = s.stack := rfl
@[simp] theorem State.countDraw_sp (s : State) : (s.countDraw).sp = s.sp := rfl
@[simp] theorem State.countDraw_dt (s : State) : (s.countDraw).dt = s.dt := rfl
@[simp] theorem State.countDraw_st (s : State) : (s.countDraw).st = s.st := rfl
@[simp] theorem State.countDraw_keys (s : State) : (s.countDraw).keys = s.keys := rfl
@[simp] theorem State.countDraw_fb (s : State) : (s.countDraw).fb = s.fb := rfl
@[simp] theorem State.countDraw_policies (s : State) : (s.countDraw).policies = s.policies := rfl
@[simp] theorem State.countDraw_draws (s : State) : (s.countDraw).draws = s.draws + 1 := rfl
@[simp] theorem State.countDraw_reg (s : State) (z : Nibble) : (s.countDraw).reg z = s.reg z := rfl
@[simp] theorem State.countDraw_byteAt (s : State) (n : Nat) : (s.countDraw).byteAt n = s.byteAt n := rfl
@[simp] theorem State.countDraw_slot (s : State) (n : Nat) : (s.countDraw).slot n = s.slot n := rfl
@[simp] theorem State.countDraw_cell (s : State) (c r : Nat) : (s.countDraw).cell c r = s.cell c r := rfl
@[simp] theorem State.countDraw_keyDown (s : State) (n : Nat) : (s.countDraw).keyDown n = s.keyDown n := rfl

@[simp] theorem State.setStack_mem (s : State) (slots : Vector Word 16) (depth : Fin 17) : (s.setStack slots depth).mem = s.mem := rfl
@[simp] theorem State.setStack_v (s : State) (slots : Vector Word 16) (depth : Fin 17) : (s.setStack slots depth).v = s.v := rfl
@[simp] theorem State.setStack_i (s : State) (slots : Vector Word 16) (depth : Fin 17) : (s.setStack slots depth).i = s.i := rfl
@[simp] theorem State.setStack_pc (s : State) (slots : Vector Word 16) (depth : Fin 17) : (s.setStack slots depth).pc = s.pc := rfl
@[simp] theorem State.setStack_stack (s : State) (slots : Vector Word 16) (depth : Fin 17) : (s.setStack slots depth).stack = slots := rfl
@[simp] theorem State.setStack_sp (s : State) (slots : Vector Word 16) (depth : Fin 17) : (s.setStack slots depth).sp = depth := rfl
@[simp] theorem State.setStack_dt (s : State) (slots : Vector Word 16) (depth : Fin 17) : (s.setStack slots depth).dt = s.dt := rfl
@[simp] theorem State.setStack_st (s : State) (slots : Vector Word 16) (depth : Fin 17) : (s.setStack slots depth).st = s.st := rfl
@[simp] theorem State.setStack_keys (s : State) (slots : Vector Word 16) (depth : Fin 17) : (s.setStack slots depth).keys = s.keys := rfl
@[simp] theorem State.setStack_fb (s : State) (slots : Vector Word 16) (depth : Fin 17) : (s.setStack slots depth).fb = s.fb := rfl
@[simp] theorem State.setStack_policies (s : State) (slots : Vector Word 16) (depth : Fin 17) : (s.setStack slots depth).policies = s.policies := rfl
@[simp] theorem State.setStack_draws (s : State) (slots : Vector Word 16) (depth : Fin 17) : (s.setStack slots depth).draws = s.draws := rfl
@[simp] theorem State.setStack_reg (s : State) (slots : Vector Word 16) (depth : Fin 17) (z : Nibble) : (s.setStack slots depth).reg z = s.reg z := rfl
@[simp] theorem State.setStack_byteAt (s : State) (slots : Vector Word 16) (depth : Fin 17) (n : Nat) : (s.setStack slots depth).byteAt n = s.byteAt n := rfl
@[simp] theorem State.setStack_cell (s : State) (slots : Vector Word 16) (depth : Fin 17) (c r : Nat) : (s.setStack slots depth).cell c r = s.cell c r := rfl
@[simp] theorem State.setStack_keyDown (s : State) (slots : Vector Word 16) (depth : Fin 17) (n : Nat) : (s.setStack slots depth).keyDown n = s.keyDown n := rfl

@[simp] theorem State.setScreen_mem (s : State) (fb : Screen) : (s.setScreen fb).mem = s.mem := rfl
@[simp] theorem State.setScreen_v (s : State) (fb : Screen) : (s.setScreen fb).v = s.v := rfl
@[simp] theorem State.setScreen_i (s : State) (fb : Screen) : (s.setScreen fb).i = s.i := rfl
@[simp] theorem State.setScreen_pc (s : State) (fb : Screen) : (s.setScreen fb).pc = s.pc := rfl
@[simp] theorem State.setScreen_stack (s : State) (fb : Screen) : (s.setScreen fb).stack = s.stack := rfl
@[simp] theorem State.setScreen_sp (s : State) (fb : Screen) : (s.setScreen fb).sp = s.sp := rfl
@[simp] theorem State.setScreen_dt (s : State) (fb : Screen) : (s.setScreen fb).dt = s.dt := rfl
@[simp] theorem State.setScreen_st (s : State) (fb : Screen) : (s.setScreen fb).st = s.st := rfl
@[simp] theorem State.setScreen_keys (s : State) (fb : Screen) : (s.setScreen fb).keys = s.keys := rfl
@[simp] theorem State.setScreen_fb (s : State) (fb : Screen) : (s.setScreen fb).fb = fb := rfl
@[simp] theorem State.setScreen_policies (s : State) (fb : Screen) : (s.setScreen fb).policies = s.policies := rfl
@[simp] theorem State.setScreen_draws (s : State) (fb : Screen) : (s.setScreen fb).draws = s.draws := rfl
@[simp] theorem State.setScreen_reg (s : State) (fb : Screen) (z : Nibble) : (s.setScreen fb).reg z = s.reg z := rfl
@[simp] theorem State.setScreen_byteAt (s : State) (fb : Screen) (n : Nat) : (s.setScreen fb).byteAt n = s.byteAt n := rfl
@[simp] theorem State.setScreen_slot (s : State) (fb : Screen) (n : Nat) : (s.setScreen fb).slot n = s.slot n := rfl
@[simp] theorem State.setScreen_keyDown (s : State) (fb : Screen) (n : Nat) : (s.setScreen fb).keyDown n = s.keyDown n := rfl

/-! ## What the updates change -/

@[simp] theorem State.setMem_byteAt (s : State) (m : Memory) (a : Nat) : (s.setMem m).byteAt a = m.read a := rfl

@[simp] theorem State.setScreen_cell (s : State) (fb : Screen) (c r : Nat) : (s.setScreen fb).cell c r = cellOf fb c r := rfl

/-- A register reads what was last written to it, and any other is as before (R21). -/
theorem State.reg_setReg (s : State) (x z : Nibble) (b : Byte) :
    (s.setReg x b).reg z = if z = x then b else s.reg z := by
  simp only [State.reg, State.setReg, Vector.getElem_set]
  by_cases h : z = x
  · simp [h]
  · have h' : x.toNat ≠ z.toNat := fun e => h (BitVec.eq_of_toNat_eq e.symm)
    simp [h, h']

@[simp] theorem State.reg_setReg_self (s : State) (x : Nibble) (b : Byte) : (s.setReg x b).reg x = b := by
  simp [State.reg_setReg]

/-- VF after a flag write is the flag, and any other register is as before (R22). -/
theorem State.reg_setFlag (s : State) (flag : Bool) (z : Nibble) :
    (s.setFlag flag).reg z = if z = 15#4 then (if flag then 1 else 0) else s.reg z :=
  State.reg_setReg ..

@[simp] theorem State.reg_setFlag_VF (s : State) (flag : Bool) : (s.setFlag flag).reg 15#4 = if flag then 1 else 0 := by
  simp [State.reg_setFlag]

/-! ## Conditional updates -/

@[simp] theorem State.skipIf_pc (s : State) (skip : Bool) : (s.skipIf skip).pc = if skip then s.pc + 2 else s.pc := by
  cases skip <;> rfl

@[simp] theorem State.skipIf_mem (s : State) (skip : Bool) : (s.skipIf skip).mem = s.mem := by cases skip <;> rfl
@[simp] theorem State.skipIf_v (s : State) (skip : Bool) : (s.skipIf skip).v = s.v := by cases skip <;> rfl
@[simp] theorem State.skipIf_i (s : State) (skip : Bool) : (s.skipIf skip).i = s.i := by cases skip <;> rfl
@[simp] theorem State.skipIf_stack (s : State) (skip : Bool) : (s.skipIf skip).stack = s.stack := by cases skip <;> rfl
@[simp] theorem State.skipIf_sp (s : State) (skip : Bool) : (s.skipIf skip).sp = s.sp := by cases skip <;> rfl
@[simp] theorem State.skipIf_dt (s : State) (skip : Bool) : (s.skipIf skip).dt = s.dt := by cases skip <;> rfl
@[simp] theorem State.skipIf_st (s : State) (skip : Bool) : (s.skipIf skip).st = s.st := by cases skip <;> rfl
@[simp] theorem State.skipIf_keys (s : State) (skip : Bool) : (s.skipIf skip).keys = s.keys := by cases skip <;> rfl
@[simp] theorem State.skipIf_fb (s : State) (skip : Bool) : (s.skipIf skip).fb = s.fb := by cases skip <;> rfl
@[simp] theorem State.skipIf_policies (s : State) (skip : Bool) : (s.skipIf skip).policies = s.policies := by cases skip <;> rfl
@[simp] theorem State.skipIf_draws (s : State) (skip : Bool) : (s.skipIf skip).draws = s.draws := by cases skip <;> rfl
@[simp] theorem State.skipIf_reg (s : State) (skip : Bool) (z : Nibble) : (s.skipIf skip).reg z = s.reg z := by cases skip <;> rfl
@[simp] theorem State.skipIf_byteAt (s : State) (skip : Bool) (n : Nat) : (s.skipIf skip).byteAt n = s.byteAt n := by cases skip <;> rfl
@[simp] theorem State.skipIf_slot (s : State) (skip : Bool) (n : Nat) : (s.skipIf skip).slot n = s.slot n := by cases skip <;> rfl
@[simp] theorem State.skipIf_cell (s : State) (skip : Bool) (c r : Nat) : (s.skipIf skip).cell c r = s.cell c r := by cases skip <;> rfl
@[simp] theorem State.skipIf_keyDown (s : State) (skip : Bool) (n : Nat) : (s.skipIf skip).keyDown n = s.keyDown n := by cases skip <;> rfl

@[simp] theorem State.stepIndex_i (s : State) (x : Nibble) :
    (s.stepIndex x).i = if s.policies.loadStoreAdvancesI then BitVec.ofNat 12 (s.i.toNat + x.toNat + 1) else s.i := by
  unfold State.stepIndex; split <;> rfl

@[simp] theorem State.stepIndex_mem (s : State) (x : Nibble) : (s.stepIndex x).mem = s.mem := by unfold State.stepIndex; split <;> rfl
@[simp] theorem State.stepIndex_v (s : State) (x : Nibble) : (s.stepIndex x).v = s.v := by unfold State.stepIndex; split <;> rfl
@[simp] theorem State.stepIndex_pc (s : State) (x : Nibble) : (s.stepIndex x).pc = s.pc := by unfold State.stepIndex; split <;> rfl
@[simp] theorem State.stepIndex_stack (s : State) (x : Nibble) : (s.stepIndex x).stack = s.stack := by unfold State.stepIndex; split <;> rfl
@[simp] theorem State.stepIndex_sp (s : State) (x : Nibble) : (s.stepIndex x).sp = s.sp := by unfold State.stepIndex; split <;> rfl
@[simp] theorem State.stepIndex_dt (s : State) (x : Nibble) : (s.stepIndex x).dt = s.dt := by unfold State.stepIndex; split <;> rfl
@[simp] theorem State.stepIndex_st (s : State) (x : Nibble) : (s.stepIndex x).st = s.st := by unfold State.stepIndex; split <;> rfl
@[simp] theorem State.stepIndex_keys (s : State) (x : Nibble) : (s.stepIndex x).keys = s.keys := by unfold State.stepIndex; split <;> rfl
@[simp] theorem State.stepIndex_fb (s : State) (x : Nibble) : (s.stepIndex x).fb = s.fb := by unfold State.stepIndex; split <;> rfl
@[simp] theorem State.stepIndex_policies (s : State) (x : Nibble) : (s.stepIndex x).policies = s.policies := by unfold State.stepIndex; split <;> rfl
@[simp] theorem State.stepIndex_draws (s : State) (x : Nibble) : (s.stepIndex x).draws = s.draws := by unfold State.stepIndex; split <;> rfl
@[simp] theorem State.stepIndex_reg (s : State) (x : Nibble) (z : Nibble) : (s.stepIndex x).reg z = s.reg z := by
  unfold State.stepIndex; split <;> rfl
@[simp] theorem State.stepIndex_byteAt (s : State) (x : Nibble) (n : Nat) : (s.stepIndex x).byteAt n = s.byteAt n := by
  unfold State.stepIndex; split <;> rfl
@[simp] theorem State.stepIndex_slot (s : State) (x : Nibble) (n : Nat) : (s.stepIndex x).slot n = s.slot n := by
  unfold State.stepIndex; split <;> rfl
@[simp] theorem State.stepIndex_cell (s : State) (x : Nibble) (c r : Nat) : (s.stepIndex x).cell c r = s.cell c r := by
  unfold State.stepIndex; split <;> rfl
@[simp] theorem State.stepIndex_keyDown (s : State) (x : Nibble) (n : Nat) : (s.stepIndex x).keyDown n = s.keyDown n := by
  unfold State.stepIndex; split <;> rfl

/-! ## Writing a run of registers (R146) -/

@[simp] theorem State.setRegs_mem (s : State) (k : Nat) (l : List Byte) : (s.setRegs k l).mem = s.mem := by
  induction l generalizing s k with
  | nil => rfl
  | cons b l ih => simp [State.setRegs, ih]
@[simp] theorem State.setRegs_i (s : State) (k : Nat) (l : List Byte) : (s.setRegs k l).i = s.i := by
  induction l generalizing s k with
  | nil => rfl
  | cons b l ih => simp [State.setRegs, ih]
@[simp] theorem State.setRegs_pc (s : State) (k : Nat) (l : List Byte) : (s.setRegs k l).pc = s.pc := by
  induction l generalizing s k with
  | nil => rfl
  | cons b l ih => simp [State.setRegs, ih]
@[simp] theorem State.setRegs_stack (s : State) (k : Nat) (l : List Byte) : (s.setRegs k l).stack = s.stack := by
  induction l generalizing s k with
  | nil => rfl
  | cons b l ih => simp [State.setRegs, ih]
@[simp] theorem State.setRegs_sp (s : State) (k : Nat) (l : List Byte) : (s.setRegs k l).sp = s.sp := by
  induction l generalizing s k with
  | nil => rfl
  | cons b l ih => simp [State.setRegs, ih]
@[simp] theorem State.setRegs_dt (s : State) (k : Nat) (l : List Byte) : (s.setRegs k l).dt = s.dt := by
  induction l generalizing s k with
  | nil => rfl
  | cons b l ih => simp [State.setRegs, ih]
@[simp] theorem State.setRegs_st (s : State) (k : Nat) (l : List Byte) : (s.setRegs k l).st = s.st := by
  induction l generalizing s k with
  | nil => rfl
  | cons b l ih => simp [State.setRegs, ih]
@[simp] theorem State.setRegs_keys (s : State) (k : Nat) (l : List Byte) : (s.setRegs k l).keys = s.keys := by
  induction l generalizing s k with
  | nil => rfl
  | cons b l ih => simp [State.setRegs, ih]
@[simp] theorem State.setRegs_fb (s : State) (k : Nat) (l : List Byte) : (s.setRegs k l).fb = s.fb := by
  induction l generalizing s k with
  | nil => rfl
  | cons b l ih => simp [State.setRegs, ih]
@[simp] theorem State.setRegs_policies (s : State) (k : Nat) (l : List Byte) : (s.setRegs k l).policies = s.policies := by
  induction l generalizing s k with
  | nil => rfl
  | cons b l ih => simp [State.setRegs, ih]
@[simp] theorem State.setRegs_draws (s : State) (k : Nat) (l : List Byte) : (s.setRegs k l).draws = s.draws := by
  induction l generalizing s k with
  | nil => rfl
  | cons b l ih => simp [State.setRegs, ih]

@[simp] theorem State.setRegs_byteAt (s : State) (k : Nat) (l : List Byte) (n : Nat) : (s.setRegs k l).byteAt n = s.byteAt n := by
  simp only [State.byteAt, State.setRegs_mem]
@[simp] theorem State.setRegs_slot (s : State) (k : Nat) (l : List Byte) (n : Nat) : (s.setRegs k l).slot n = s.slot n := by
  simp only [State.slot, State.setRegs_stack]
@[simp] theorem State.setRegs_cell (s : State) (k : Nat) (l : List Byte) (c r : Nat) : (s.setRegs k l).cell c r = s.cell c r := by
  simp only [State.cell, State.setRegs_fb]
@[simp] theorem State.setRegs_keyDown (s : State) (k : Nat) (l : List Byte) (n : Nat) : (s.setRegs k l).keyDown n = s.keyDown n := by
  simp only [State.keyDown, State.setRegs_keys]

/-- `V[j]` after loading a run of bytes into `V[k], V[k+1], …`: the byte of the run for it, or what it held (R146). -/
theorem State.reg_setRegs (s : State) (k : Nat) (l : List Byte) (hl : k + l.length ≤ 16) (z : Nibble) :
    (s.setRegs k l).reg z = if h : k ≤ z.toNat ∧ z.toNat - k < l.length then l[z.toNat - k]'h.2 else s.reg z := by
  induction l generalizing s k with
  | nil => simp [State.setRegs]
  | cons b l ih =>
    simp only [List.length_cons] at hl
    rw [State.setRegs, ih _ _ (by omega), State.reg_setReg]
    have hz : z.toNat < 16 := z.isLt
    have hk : (BitVec.ofNat 4 k).toNat = k := by simp; omega
    by_cases h1 : k + 1 ≤ z.toNat ∧ z.toNat - (k + 1) < l.length
    · have h2 : k ≤ z.toNat ∧ z.toNat - k < (b :: l).length := by simp only [List.length_cons]; omega
      rw [dif_pos h1, dif_pos h2]
      have h3 : z.toNat - k = z.toNat - (k + 1) + 1 := by omega
      simp [h3]
    · rw [dif_neg h1]
      by_cases h4 : z.toNat = k
      · have h5 : z = BitVec.ofNat 4 k := BitVec.eq_of_toNat_eq (by rw [hk, h4])
        rw [if_pos h5, dif_pos (by simp only [List.length_cons]; omega)]
        simp [h4]
      · have h5 : z ≠ BitVec.ofNat 4 k := fun e => h4 (by rw [e, hk])
        rw [if_neg h5, dif_neg (by simp only [List.length_cons]; omega)]

end Sys2Proof.Machine
end

