-- ==== Sys2Proof/Laws/Ops.lean ====
section
/-! SUPPORT. One lemma for each shared operation, saying all it can do: the range check, the block reads and writes, the
call stack, the key lookup, the fetch, and raising a fault. -/

namespace Sys2Proof.Machine

/-! ## The range check (R140) -/

theorem inMemory_iff (a k : Nat) : inMemory a k = true ↔ k = 0 ∨ a + k ≤ 4096 := by
  simp only [inMemory, Bool.or_eq_true, decide_eq_true_eq]; omega

/-! ## Block reads and writes (R140, R144–R146) -/

/-- A block read answers the bytes of the range exactly when the range is in memory. -/
theorem State.readBlock_eq_some (s : State) (a k : Nat) (l : List Byte) :
    s.readBlock a k = some l ↔ inMemory a k = true ∧ l = (List.range k).map fun j => s.byteAt (a + j) := by
  unfold State.readBlock
  by_cases h : inMemory a k = true
  · rw [if_pos h, Option.some.injEq]
    exact ⟨fun e => ⟨h, e.symm⟩, fun e => e.2.symm⟩
  · rw [if_neg h]
    exact ⟨nofun, fun e => absurd e.1 h⟩

/-- A block read answers nothing exactly when the range is not in memory. -/
theorem State.readBlock_eq_none (s : State) (a k : Nat) : s.readBlock a k = none ↔ inMemory a k = false := by
  unfold State.readBlock
  split <;> simp_all

/-- A block write changes memory, and nothing else, exactly when the range is in memory. -/
theorem State.writeBlock_eq_some (s t : State) (a : Nat) (l : List Byte) :
    s.writeBlock a l = some t ↔ inMemory a l.length = true ∧ t = s.setMem (writeBytes s.mem a l) := by
  unfold State.writeBlock
  by_cases h : inMemory a l.length = true
  · rw [if_pos h, Option.some.injEq]
    exact ⟨fun e => ⟨h, e.symm⟩, fun e => e.2.symm⟩
  · rw [if_neg h]
    exact ⟨nofun, fun e => absurd e.1 h⟩

/-- A block write answers nothing exactly when the range is not in memory. -/
theorem State.writeBlock_eq_none (s : State) (a : Nat) (l : List Byte) :
    s.writeBlock a l = none ↔ inMemory a l.length = false := by
  unfold State.writeBlock
  split <;> simp_all

/-- What an address reads as after a block write (R61). -/
theorem State.byteAt_writeBlock {s t : State} {a : Nat} {l : List Byte} (h : s.writeBlock a l = some t)
    (hw : s.mem.wf = true) (hl : l ≠ []) (a' : Nat) :
    t.byteAt a' = if hr : a ≤ a' ∧ a' - a < l.length then l[a' - a]'hr.2 else s.byteAt a' := by
  obtain ⟨h1, rfl⟩ := (State.writeBlock_eq_some ..).1 h
  have h2 : a + l.length ≤ 4096 := by
    rcases (inMemory_iff ..).1 h1 with h3 | h3
    · exact absurd (List.eq_nil_of_length_eq_zero h3) hl
    · exact h3
  exact read_writeBytes hw h2 a'

/-- A block write keeps memory in form. -/
theorem State.wf_writeBlock {s t : State} {a : Nat} {l : List Byte} (h : s.writeBlock a l = some t)
    (hw : s.mem.wf = true) : t.mem.wf = true := by
  obtain ⟨h1, rfl⟩ := (State.writeBlock_eq_some ..).1 h
  rcases (inMemory_iff ..).1 h1 with h3 | h3
  · rw [List.eq_nil_of_length_eq_zero h3]
    exact hw
  · exact wf_writeBytes hw h3

@[simp] theorem State.length_regBlock (s : State) (x : Nibble) : (s.regBlock x).length = x.toNat + 1 := by
  simp [State.regBlock]

@[simp] theorem length_bcdDigits (b : Byte) : (bcdDigits b).length = 3 := rfl

/-! ## The call stack (R28) -/

/-- A push answers exactly when SP < 16: the slot at SP takes the value and SP rises by one. -/
theorem State.push_eq_some (s t : State) (w : Word) :
    s.push w = some t ↔ ∃ h : s.sp.val < 16, t = s.setStack (s.stack.set s.sp.val w h) ⟨s.sp.val + 1, by omega⟩ := by
  unfold State.push
  split <;> simp_all [eq_comm]

theorem State.push_eq_none (s : State) (w : Word) : s.push w = none ↔ s.sp.val = 16 := by
  have := s.sp.isLt
  unfold State.push
  split <;> simp <;> omega

/-- The slots after a push: the one at the old SP holds the value, every other is as before. -/
theorem State.slot_push {s t : State} {w : Word} (h : s.push w = some t) (k : Nat) :
    t.slot k = if k = s.sp.val then w else s.slot k := by
  obtain ⟨hlt, rfl⟩ := (State.push_eq_some ..).1 h
  simp only [State.slot, State.setStack_stack]
  by_cases hk : k < 16
  · simp only [dif_pos hk, Vector.getElem_set]
    by_cases e : k = s.sp.val
    · simp [e]
    · simp [e, Ne.symm e]
  · rw [dif_neg hk, dif_neg hk, if_neg (by omega)]

/-- A pop answers exactly when SP > 0: the slot below SP, SP lowered by one, the slots unchanged (R29). -/
theorem State.pop_eq_some (s : State) (p : Word × State) :
    s.pop = some p ↔ 0 < s.sp.val ∧ p = (s.slot (s.sp.val - 1), s.setStack s.stack ⟨s.sp.val - 1, by omega⟩) := by
  unfold State.pop
  split <;> simp_all [eq_comm]

theorem State.pop_eq_none (s : State) : s.pop = none ↔ s.sp.val = 0 := by
  unfold State.pop
  split <;> simp <;> omega

/-! ## Faults (R180–R182) -/

/-- Raising a fault answers that kind, with the state it was raised from. -/
theorem raise_eq_fault (kind : FaultKind) (s : State) :
    ∃ f, raise kind s = .fault f ∧ f.kind = kind ∧ f.after = s := by
  cases kind <;> exact ⟨_, rfl, rfl, rfl⟩

theorem raise_ne_next (kind : FaultKind) (s t : State) : raise kind s ≠ .next t := by
  cases kind <;> exact nofun

theorem raise_ne_refused (kind : FaultKind) (s : State) (r : Refusal) : raise kind s ≠ .refused r := by
  cases kind <;> exact nofun

/-- `nextOr` answers a next state exactly when there is one. -/
theorem nextOr_eq_next (kind : FaultKind) (s t : State) (o : Option State) :
    nextOr kind s o = .next t ↔ o = some t := by
  cases o with
  | none => simp [nextOr, raise_ne_next]
  | some u => simp [nextOr]

/-- A fault of `nextOr` is of its kind and leaves the state the instruction started in (R95). -/
theorem nextOr_eq_fault {kind : FaultKind} {s : State} {o : Option State} {f : Fault} (h : nextOr kind s o = .fault f) :
    o = none ∧ f.kind = kind ∧ f.after = s := by
  cases o with
  | none => cases kind <;> (simp only [nextOr, raise, Host.Outcome.fault.injEq] at h; subst h; exact ⟨rfl, rfl, rfl⟩)
  | some u => exact absurd h (by simp [nextOr])

theorem nextOr_ne_refused (kind : FaultKind) (s : State) (o : Option State) (r : Refusal) :
    nextOr kind s o ≠ .refused r := by
  cases o with
  | none => exact raise_ne_refused kind s r
  | some u => exact nofun

/-! ## The keypad (R170, R174) -/

/-- The lowest key down, when one is: it is down, and none below it is. -/
theorem State.lowestKey_eq_some (s : State) (k : Nat) :
    s.lowestKey = some k ↔ s.keyDown k = true ∧ ∀ j < k, s.keyDown j = false := by
  unfold State.lowestKey
  constructor
  · intro h
    rw [List.find?_range_eq_some] at h
    obtain ⟨h1, -, h3⟩ := h
    exact ⟨h1, fun j hj => by simpa using h3 j hj⟩
  · rintro ⟨h1, h2⟩
    rw [List.find?_range_eq_some]
    have hk : k < 16 := by
      by_contra hk
      simp [State.keyDown, hk] at h1
    exact ⟨h1, List.mem_range.2 hk, fun j hj => by simpa using h2 j hj⟩

theorem State.lowestKey_eq_none (s : State) : s.lowestKey = none ↔ ∀ k, s.keyDown k = false := by
  unfold State.lowestKey
  simp only [List.find?_eq_none, List.mem_range, Bool.not_eq_true]
  refine ⟨fun h k => ?_, fun h k _ => h k⟩
  by_cases hk : k < 16
  · exact h k hk
  · simp [State.keyDown, hk]

/-! ## Fetch (R91) -/

/-- A fetch reads a word exactly when PC < 0xFFF. -/
theorem fetchWord_eq_none (s : State) : fetchWord s = none ↔ 0xFFF ≤ s.pc.toNat := by
  unfold fetchWord
  split <;> simp <;> omega

theorem fetchWord_eq_some (s : State) (w : Word) :
    fetchWord s = some w ↔ s.pc.toNat < 0xFFF ∧ w = wordOfBytes (s.byteAt s.pc.toNat) (s.byteAt (s.pc.toNat + 1)) := by
  unfold fetchWord
  split
  · simp; omega
  · simp [eq_comm]; omega

end Sys2Proof.Machine
end

