-- ==== Sys2Proof/Laws/Draw.lean ====
section
/-! SUPPORT. What a draw does, cell by cell (44_display.md R160–R165): each cell the sprite covers with a 1 is inverted, no
other cell changes, and a collision is an on cell so covered. -/

namespace Sys2Proof.Machine

/-- The sprite of these rows, drawn at column `cx` and row `cy`, has a 1 at cell (c, r) (R160). -/
def spriteCovers (rows : List Byte) (cx cy c r : Nat) : Bool :=
  decide (cy ≤ r ∧ r - cy < rows.length ∧ cx ≤ c ∧ c - cx < 8) && spriteBit (rows.getD (r - cy) 0) (c - cx)

/-! ## One cell -/

theorem cellOf_setCell (fb : Screen) {c r : Nat} (hc : c < 64) (hr : r < 32) (on : Bool) (c' r' : Nat) :
    cellOf (setCell fb c r on) c' r' = if c' = c ∧ r' = r then on else cellOf fb c' r' := by
  simp only [setCell, hc, hr, dif_pos, cellOf]
  by_cases hc' : c' < 64
  · by_cases hr' : r' < 32
    · simp only [hc', hr', dif_pos, Vector.getElem_set]
      by_cases e : c = c'
      · subst e
        by_cases e' : r = r'
        · simp [e']
        · simp [e', Ne.symm e']
      · simp [e, Ne.symm e]
    · have : ¬ r' = r := fun e => hr' (e ▸ hr)
      simp [hr', this]
  · have : ¬ c' = c := fun e => hc' (e ▸ hc)
    simp [hc', this]

/-- R163 on the grid: the one cell is inverted. -/
theorem cellOf_toggleCell (acc : Blit) {c r : Nat} (hc : c < 64) (hr : r < 32) (c' r' : Nat) :
    cellOf (toggleCell acc c r).fb c' r' = (cellOf acc.fb c' r' ^^ decide (c' = c ∧ r' = r)) := by
  unfold toggleCell
  by_cases e : c' = c ∧ r' = r
  · obtain ⟨rfl, rfl⟩ := e
    split <;> rename_i h <;> simp [cellOf_setCell _ hc hr, h]
  · rw [decide_eq_false e, Bool.xor_false]
    split <;> simp [cellOf_setCell _ hc hr, e]

/-- R163: inverting an on cell is a collision. -/
theorem hit_toggleCell (acc : Blit) (c r : Nat) : (toggleCell acc c r).hit = (acc.hit || cellOf acc.fb c r) := by
  unfold toggleCell
  split <;> simp_all

/-! ## One pixel -/

theorem cellOf_drawPixel (row : Byte) (cx py : Nat) (hr : py < 32) (acc : Blit) (k c r : Nat) :
    cellOf (drawPixel row cx py acc k).fb c r =
      (cellOf acc.fb c r ^^ (decide (r = py ∧ c = cx + k ∧ c < 64) && spriteBit row k)) := by
  unfold drawPixel
  split
  · rw [decide_eq_false (by omega)]; simp
  · split
    · rw [cellOf_toggleCell _ (by omega) hr]
      have : (c = cx + k ∧ r = py) ↔ (r = py ∧ c = cx + k ∧ c < 64) := by omega
      rw [decide_eq_decide.2 this, ‹spriteBit row k = true›, Bool.and_true]
    · simp_all

theorem hit_drawPixel (row : Byte) (cx py : Nat) (acc : Blit) (k : Nat) :
    (drawPixel row cx py acc k).hit = (acc.hit || (decide (cx + k < 64) && spriteBit row k && cellOf acc.fb (cx + k) py)) := by
  unfold drawPixel
  split
  · rw [decide_eq_false (by omega)]; simp
  · rw [decide_eq_true (by omega)]
    split
    · rw [hit_toggleCell]; simp_all
    · simp_all

/-! ## One row -/

theorem cellOf_pixels (row : Byte) (cx py : Nat) (hr : py < 32) (l : List Nat) (hl : l.Nodup) (acc : Blit) (c r : Nat) :
    cellOf (l.foldl (drawPixel row cx py) acc).fb c r =
      (cellOf acc.fb c r ^^ (decide (r = py ∧ cx ≤ c ∧ c < 64 ∧ c - cx ∈ l) && spriteBit row (c - cx))) := by
  induction l generalizing acc with
  | nil => simp
  | cons k l ih =>
    obtain ⟨hk, hl⟩ := List.nodup_cons.1 hl
    rw [List.foldl_cons, ih hl, cellOf_drawPixel _ _ _ hr]
    by_cases e : cx ≤ c ∧ c - cx = k
    · have h1 : c = cx + k := by omega
      have h2 : c - cx ∉ l := e.2 ▸ hk
      have h3 : (r = py ∧ c = cx + k ∧ c < 64) ↔ (r = py ∧ cx ≤ c ∧ c < 64 ∧ c - cx ∈ k :: l) := by
        rw [List.mem_cons]
        omega
      have h4 : decide (r = py ∧ c = cx + k ∧ c < 64) = decide (r = py ∧ cx ≤ c ∧ c < 64 ∧ c - cx ∈ k :: l) :=
        decide_eq_decide.2 h3
      rw [h4, decide_eq_false (p := r = py ∧ cx ≤ c ∧ c < 64 ∧ c - cx ∈ l) (fun h => h2 h.2.2.2), ← congrArg (spriteBit row) e.2]
      simp only [Bool.false_and, Bool.xor_false]
    · have h1 : ¬ (r = py ∧ c = cx + k ∧ c < 64) := by omega
      have h2 : (r = py ∧ cx ≤ c ∧ c < 64 ∧ c - cx ∈ k :: l) ↔ (r = py ∧ cx ≤ c ∧ c < 64 ∧ c - cx ∈ l) := by
        rw [List.mem_cons]
        constructor
        · rintro ⟨h, h', h'', h3 | h3⟩
          · omega
          · exact ⟨h, h', h'', h3⟩
        · rintro ⟨h, h', h'', h3⟩
          exact ⟨h, h', h'', .inr h3⟩
      rw [decide_eq_false h1]
      simp only [h2, Bool.false_and, Bool.xor_false]

theorem hit_pixels (row : Byte) (cx py : Nat) (hr : py < 32) (l : List Nat) (hl : l.Nodup) (acc : Blit) :
    (l.foldl (drawPixel row cx py) acc).hit = true ↔
      acc.hit = true ∨ ∃ k ∈ l, cx + k < 64 ∧ spriteBit row k = true ∧ cellOf acc.fb (cx + k) py = true := by
  induction l generalizing acc with
  | nil => simp
  | cons k l ih =>
    obtain ⟨hk, hl⟩ := List.nodup_cons.1 hl
    rw [List.foldl_cons, ih hl, hit_drawPixel]
    have hcell : ∀ j ∈ l, cellOf (drawPixel row cx py acc k).fb (cx + j) py = cellOf acc.fb (cx + j) py := by
      intro j hj
      have : j ≠ k := fun e => hk (e ▸ hj)
      rw [cellOf_drawPixel _ _ _ hr, decide_eq_false (by omega)]
      simp
    constructor
    · rintro (h | ⟨j, hj, h1, h2, h3⟩)
      · simp only [Bool.or_eq_true, Bool.and_eq_true, decide_eq_true_eq] at h
        rcases h with h | ⟨⟨h1, h2⟩, h3⟩
        · exact .inl h
        · exact .inr ⟨k, List.mem_cons_self, h1, h2, h3⟩
      · exact .inr ⟨j, List.mem_cons_of_mem _ hj, h1, h2, hcell j hj ▸ h3⟩
    · simp only [Bool.or_eq_true, Bool.and_eq_true, decide_eq_true_eq]
      rintro (h | ⟨j, hj, h1, h2, h3⟩)
      · exact .inl (.inl h)
      · rcases List.mem_cons.1 hj with rfl | hj
        · exact .inl (.inr ⟨⟨h1, h2⟩, h3⟩)
        · exact .inr ⟨j, hj, h1, h2, (hcell j hj).symm ▸ h3⟩

theorem cellOf_drawRow (row : Byte) (cx py : Nat) (acc : Blit) {c r : Nat} (hc : c < 64) (hr : r < 32) :
    cellOf (drawRow row cx py acc).fb c r =
      (cellOf acc.fb c r ^^ (decide (r = py ∧ cx ≤ c ∧ c - cx < 8) && spriteBit row (c - cx))) := by
  unfold drawRow
  split
  · rw [decide_eq_false (by omega)]; simp
  · rw [cellOf_pixels _ _ _ (by omega) _ List.nodup_range]
    simp [hc]

theorem hit_drawRow (row : Byte) (cx py : Nat) (acc : Blit) :
    (drawRow row cx py acc).hit = true ↔
      acc.hit = true ∨ ∃ c, c < 64 ∧ py < 32 ∧ cx ≤ c ∧ c - cx < 8 ∧ spriteBit row (c - cx) = true ∧ cellOf acc.fb c py = true := by
  unfold drawRow
  split
  · rename_i h
    refine ⟨.inl, ?_⟩
    rintro (h' | ⟨c, -, h', -⟩)
    · exact h'
    · omega
  · rw [hit_pixels _ _ _ (by omega) _ List.nodup_range]
    refine or_congr_right ⟨?_, ?_⟩
    · rintro ⟨k, hk, h1, h2, h3⟩
      have : cx + k - cx = k := by omega
      exact ⟨cx + k, h1, by omega, by omega, by rw [this]; exact List.mem_range.1 hk, by rw [this]; exact h2, h3⟩
    · rintro ⟨c, h1, -, h3, h4, h5, h6⟩
      have : cx + (c - cx) = c := by omega
      exact ⟨c - cx, List.mem_range.2 h4, by omega, h5, by rw [this]; exact h6⟩

/-! ## The whole sprite -/

/-- R163, R164: a draw inverts exactly the cells of the grid that the sprite covers. -/
theorem cellOf_drawRows (cx : Nat) (rows : List Byte) (cy : Nat) (acc : Blit) {c r : Nat} (hc : c < 64) (hr : r < 32) :
    cellOf (drawRows cx rows cy acc).fb c r = (cellOf acc.fb c r ^^ spriteCovers rows cx cy c r) := by
  induction rows generalizing cy acc with
  | nil => simp [drawRows, spriteCovers]
  | cons row rest ih =>
    rw [drawRows, ih, cellOf_drawRow _ _ _ _ hc hr, Bool.xor_assoc]
    congr 1
    unfold spriteCovers
    by_cases e : r = cy
    · subst e
      rw [decide_eq_false (p := r + 1 ≤ r ∧ _) (by omega)]
      simp
    · rw [decide_eq_false (p := r = cy ∧ _) (by omega)]
      by_cases h : cy + 1 ≤ r
      · have h1 : r - cy = r - (cy + 1) + 1 := by omega
        have h2 : cy ≤ r := by omega
        simp [h, h1, h2]
      · rw [decide_eq_false (p := cy + 1 ≤ r ∧ _) (by omega), decide_eq_false (p := cy ≤ r ∧ _) (by omega)]
        simp

/-- R165: the collision flag of a draw. -/
theorem hit_drawRows (cx : Nat) (rows : List Byte) (cy : Nat) (acc : Blit) :
    (drawRows cx rows cy acc).hit = true ↔
      acc.hit = true ∨ ∃ c r, c < 64 ∧ r < 32 ∧ cellOf acc.fb c r = true ∧ spriteCovers rows cx cy c r = true := by
  induction rows generalizing cy acc with
  | nil => simp [drawRows, spriteCovers]
  | cons row rest ih =>
    have hbelow : ∀ c r, c < 64 → r < 32 → spriteCovers rest cx (cy + 1) c r = true →
        cellOf (drawRow row cx cy acc).fb c r = cellOf acc.fb c r ∧ spriteCovers (row :: rest) cx cy c r = true := by
      intro c r hc hr h
      simp only [spriteCovers, Bool.and_eq_true, decide_eq_true_eq] at h
      obtain ⟨⟨h1, h2, h3, h4⟩, h5⟩ := h
      constructor
      · rw [cellOf_drawRow _ _ _ _ hc hr, decide_eq_false (by omega)]
        simp
      · have h6 : r - cy = r - (cy + 1) + 1 := by omega
        have h7 : cy ≤ r := by omega
        simp only [spriteCovers, h6, List.getD_cons_succ, Bool.and_eq_true, decide_eq_true_eq, List.length_cons]
        exact ⟨⟨by omega, by omega, h3, h4⟩, h5⟩
    rw [drawRows, ih, hit_drawRow]
    constructor
    · rintro ((h | ⟨c, h1, h2, h3, h4, h5, h6⟩) | ⟨c, r, h1, h2, h3, h4⟩)
      · exact .inl h
      · refine .inr ⟨c, cy, h1, h2, h6, ?_⟩
        simp [spriteCovers, h3, h4, h5]
      · obtain ⟨h5, h6⟩ := hbelow c r h1 h2 h4
        exact .inr ⟨c, r, h1, h2, h5 ▸ h3, h6⟩
    · rintro (h | ⟨c, r, h1, h2, h3, h4⟩)
      · exact .inl (.inl h)
      · simp only [spriteCovers, Bool.and_eq_true, decide_eq_true_eq, List.length_cons] at h4
        obtain ⟨⟨h5, h6, h7, h8⟩, h9⟩ := h4
        by_cases e : r = cy
        · subst e
          exact .inl (.inr ⟨c, h1, h2, h7, h8, by simpa using h9, h3⟩)
        · have h10 : r - cy = r - (cy + 1) + 1 := by omega
          have hcov : spriteCovers rest cx (cy + 1) c r = true := by
            rw [h10, List.getD_cons_succ] at h9
            simp only [spriteCovers, Bool.and_eq_true, decide_eq_true_eq]
            exact ⟨⟨by omega, by omega, h7, h8⟩, h9⟩
          exact .inr ⟨c, r, h1, h2, (hbelow c r h1 h2 hcov).1.symm ▸ h3, hcov⟩

end Sys2Proof.Machine
end

