-- ==== Sys2Proof/Laws/PerInstr.lean ====
section
/-! SUPPORT. One statement per instruction about its word: it is the one of its row of the opcode map (30_encoding.md R75,
R76). -/

namespace Sys2Proof

/-- The literal bits of a word built by format `XY` under a mask of whole nibbles. -/
theorem formatXY_and (o x y s o' x' y' s' : Nibble) :
    formatXY o x y s &&& formatXY o' x' y' s' = formatXY (o &&& o') (x &&& x') (y &&& y') (s &&& s') := by
  unfold formatXY
  exact BitVec.and_append.trans (congrArg (· ++ _) (BitVec.and_append.trans (congrArg (· ++ _) BitVec.and_append)))

/-- The literal bits of a word built by format `XK` under a mask of whole fields. -/
theorem formatXK_and (o x o' x' : Nibble) (nn nn' : Byte) :
    formatXK o x nn &&& formatXK o' x' nn' = formatXK (o &&& o') (x &&& x') (nn &&& nn') := by
  unfold formatXK
  exact BitVec.and_append.trans (congrArg (· ++ _) BitVec.and_append)

/-- The literal bits of a word built by format `A` under a mask of whole fields. -/
theorem formatA_and (o o' : Nibble) (a a' : Addr) : formatA o a &&& formatA o' a' = formatA (o &&& o') (a &&& a') := by
  unfold formatA
  exact BitVec.and_append

/-- R75, R76: the instruction's word matches the row of the opcode map that bears its tag. -/
def Laws.EncodingRow.Statement (i : Instr) : Prop :=
  ∃ r ∈ opcodeMap, r.tag = tagOf i ∧ rowMatches r (encode i) = true

/-- The family's statement from the row itself. -/
theorem encodingRow_of {i : Instr} (tag : String) (mask bits : Word) (hr : ⟨tag, mask, bits⟩ ∈ opcodeMap)
    (ht : tag = tagOf i) (he : encode i &&& mask = bits) : Laws.EncodingRow.Statement i :=
  ⟨_, hr, ht, by simp [rowMatches, he]⟩

theorem Laws.EncodingRow.cls : Laws.EncodingRow.Statement (.cls) :=
  encodingRow_of "CLS" 0xFFFF 0x00E0 (by decide) rfl (rfl)

theorem Laws.EncodingRow.ret : Laws.EncodingRow.Statement (.ret) :=
  encodingRow_of "RET" 0xFFFF 0x00EE (by decide) rfl (rfl)

theorem Laws.EncodingRow.jp (nnn : Addr) : Laws.EncodingRow.Statement (.jp nnn) :=
  encodingRow_of "JP" 0xF000 0x1000 (by decide) rfl ((formatA_and _ 0xF _ 0x000).trans (by simp only [BitVec.ofNat_eq_ofNat, BitVec.and_zero]; rfl))

theorem Laws.EncodingRow.call (nnn : Addr) : Laws.EncodingRow.Statement (.call nnn) :=
  encodingRow_of "CALL" 0xF000 0x2000 (by decide) rfl ((formatA_and _ 0xF _ 0x000).trans (by simp only [BitVec.ofNat_eq_ofNat, BitVec.and_zero]; rfl))

theorem Laws.EncodingRow.seImm (x : Nibble) (nn : Byte) : Laws.EncodingRow.Statement (.seImm x nn) :=
  encodingRow_of "SE_IMM" 0xF000 0x3000 (by decide) rfl ((formatXK_and _ _ 0xF 0x0 _ 0x00).trans (by simp only [BitVec.ofNat_eq_ofNat, BitVec.and_zero]; rfl))

theorem Laws.EncodingRow.sneImm (x : Nibble) (nn : Byte) : Laws.EncodingRow.Statement (.sneImm x nn) :=
  encodingRow_of "SNE_IMM" 0xF000 0x4000 (by decide) rfl ((formatXK_and _ _ 0xF 0x0 _ 0x00).trans (by simp only [BitVec.ofNat_eq_ofNat, BitVec.and_zero]; rfl))

theorem Laws.EncodingRow.seReg (x : Nibble) (y : Nibble) : Laws.EncodingRow.Statement (.seReg x y) :=
  encodingRow_of "SE_REG" 0xF00F 0x5000 (by decide) rfl ((formatXY_and _ _ _ _ 0xF 0x0 0x0 0xF).trans (by simp only [BitVec.ofNat_eq_ofNat, BitVec.and_zero]; rfl))

theorem Laws.EncodingRow.sneReg (x : Nibble) (y : Nibble) : Laws.EncodingRow.Statement (.sneReg x y) :=
  encodingRow_of "SNE_REG" 0xF00F 0x9000 (by decide) rfl ((formatXY_and _ _ _ _ 0xF 0x0 0x0 0xF).trans (by simp only [BitVec.ofNat_eq_ofNat, BitVec.and_zero]; rfl))

theorem Laws.EncodingRow.ldImm (x : Nibble) (nn : Byte) : Laws.EncodingRow.Statement (.ldImm x nn) :=
  encodingRow_of "LD_IMM" 0xF000 0x6000 (by decide) rfl ((formatXK_and _ _ 0xF 0x0 _ 0x00).trans (by simp only [BitVec.ofNat_eq_ofNat, BitVec.and_zero]; rfl))

theorem Laws.EncodingRow.addImm (x : Nibble) (nn : Byte) : Laws.EncodingRow.Statement (.addImm x nn) :=
  encodingRow_of "ADD_IMM" 0xF000 0x7000 (by decide) rfl ((formatXK_and _ _ 0xF 0x0 _ 0x00).trans (by simp only [BitVec.ofNat_eq_ofNat, BitVec.and_zero]; rfl))

theorem Laws.EncodingRow.ldReg (x : Nibble) (y : Nibble) : Laws.EncodingRow.Statement (.ldReg x y) :=
  encodingRow_of "LD_REG" 0xF00F 0x8000 (by decide) rfl ((formatXY_and _ _ _ _ 0xF 0x0 0x0 0xF).trans (by simp only [BitVec.ofNat_eq_ofNat, BitVec.and_zero]; rfl))

theorem Laws.EncodingRow.or (x : Nibble) (y : Nibble) : Laws.EncodingRow.Statement (.or x y) :=
  encodingRow_of "OR" 0xF00F 0x8001 (by decide) rfl ((formatXY_and _ _ _ _ 0xF 0x0 0x0 0xF).trans (by simp only [BitVec.ofNat_eq_ofNat, BitVec.and_zero]; rfl))

theorem Laws.EncodingRow.and (x : Nibble) (y : Nibble) : Laws.EncodingRow.Statement (.and x y) :=
  encodingRow_of "AND" 0xF00F 0x8002 (by decide) rfl ((formatXY_and _ _ _ _ 0xF 0x0 0x0 0xF).trans (by simp only [BitVec.ofNat_eq_ofNat, BitVec.and_zero]; rfl))

theorem Laws.EncodingRow.xor (x : Nibble) (y : Nibble) : Laws.EncodingRow.Statement (.xor x y) :=
  encodingRow_of "XOR" 0xF00F 0x8003 (by decide) rfl ((formatXY_and _ _ _ _ 0xF 0x0 0x0 0xF).trans (by simp only [BitVec.ofNat_eq_ofNat, BitVec.and_zero]; rfl))

theorem Laws.EncodingRow.addReg (x : Nibble) (y : Nibble) : Laws.EncodingRow.Statement (.addReg x y) :=
  encodingRow_of "ADD_REG" 0xF00F 0x8004 (by decide) rfl ((formatXY_and _ _ _ _ 0xF 0x0 0x0 0xF).trans (by simp only [BitVec.ofNat_eq_ofNat, BitVec.and_zero]; rfl))

theorem Laws.EncodingRow.sub (x : Nibble) (y : Nibble) : Laws.EncodingRow.Statement (.sub x y) :=
  encodingRow_of "SUB" 0xF00F 0x8005 (by decide) rfl ((formatXY_and _ _ _ _ 0xF 0x0 0x0 0xF).trans (by simp only [BitVec.ofNat_eq_ofNat, BitVec.and_zero]; rfl))

theorem Laws.EncodingRow.subn (x : Nibble) (y : Nibble) : Laws.EncodingRow.Statement (.subn x y) :=
  encodingRow_of "SUBN" 0xF00F 0x8007 (by decide) rfl ((formatXY_and _ _ _ _ 0xF 0x0 0x0 0xF).trans (by simp only [BitVec.ofNat_eq_ofNat, BitVec.and_zero]; rfl))

theorem Laws.EncodingRow.shr (x : Nibble) (y : Nibble) : Laws.EncodingRow.Statement (.shr x y) :=
  encodingRow_of "SHR" 0xF00F 0x8006 (by decide) rfl ((formatXY_and _ _ _ _ 0xF 0x0 0x0 0xF).trans (by simp only [BitVec.ofNat_eq_ofNat, BitVec.and_zero]; rfl))

theorem Laws.EncodingRow.shl (x : Nibble) (y : Nibble) : Laws.EncodingRow.Statement (.shl x y) :=
  encodingRow_of "SHL" 0xF00F 0x800E (by decide) rfl ((formatXY_and _ _ _ _ 0xF 0x0 0x0 0xF).trans (by simp only [BitVec.ofNat_eq_ofNat, BitVec.and_zero]; rfl))

theorem Laws.EncodingRow.ldI (nnn : Addr) : Laws.EncodingRow.Statement (.ldI nnn) :=
  encodingRow_of "LD_I" 0xF000 0xA000 (by decide) rfl ((formatA_and _ 0xF _ 0x000).trans (by simp only [BitVec.ofNat_eq_ofNat, BitVec.and_zero]; rfl))

theorem Laws.EncodingRow.jpV0 (nnn : Addr) : Laws.EncodingRow.Statement (.jpV0 nnn) :=
  encodingRow_of "JP_V0" 0xF000 0xB000 (by decide) rfl ((formatA_and _ 0xF _ 0x000).trans (by simp only [BitVec.ofNat_eq_ofNat, BitVec.and_zero]; rfl))

theorem Laws.EncodingRow.rnd (x : Nibble) (nn : Byte) : Laws.EncodingRow.Statement (.rnd x nn) :=
  encodingRow_of "RND" 0xF000 0xC000 (by decide) rfl ((formatXK_and _ _ 0xF 0x0 _ 0x00).trans (by simp only [BitVec.ofNat_eq_ofNat, BitVec.and_zero]; rfl))

theorem Laws.EncodingRow.drw (x : Nibble) (y : Nibble) (n : Nibble) : Laws.EncodingRow.Statement (.drw x y n) :=
  encodingRow_of "DRW" 0xF000 0xD000 (by decide) rfl ((formatXY_and _ _ _ _ 0xF 0x0 0x0 0x0).trans (by simp only [BitVec.ofNat_eq_ofNat, BitVec.and_zero]; rfl))

theorem Laws.EncodingRow.skp (x : Nibble) : Laws.EncodingRow.Statement (.skp x) :=
  encodingRow_of "SKP" 0xF0FF 0xE09E (by decide) rfl ((formatXK_and _ _ 0xF 0x0 _ 0xFF).trans (by simp only [BitVec.ofNat_eq_ofNat, BitVec.and_zero]; rfl))

theorem Laws.EncodingRow.sknp (x : Nibble) : Laws.EncodingRow.Statement (.sknp x) :=
  encodingRow_of "SKNP" 0xF0FF 0xE0A1 (by decide) rfl ((formatXK_and _ _ 0xF 0x0 _ 0xFF).trans (by simp only [BitVec.ofNat_eq_ofNat, BitVec.and_zero]; rfl))

theorem Laws.EncodingRow.ldVxDt (x : Nibble) : Laws.EncodingRow.Statement (.ldVxDt x) :=
  encodingRow_of "LD_VX_DT" 0xF0FF 0xF007 (by decide) rfl ((formatXK_and _ _ 0xF 0x0 _ 0xFF).trans (by simp only [BitVec.ofNat_eq_ofNat, BitVec.and_zero]; rfl))

theorem Laws.EncodingRow.ldVxK (x : Nibble) : Laws.EncodingRow.Statement (.ldVxK x) :=
  encodingRow_of "LD_VX_K" 0xF0FF 0xF00A (by decide) rfl ((formatXK_and _ _ 0xF 0x0 _ 0xFF).trans (by simp only [BitVec.ofNat_eq_ofNat, BitVec.and_zero]; rfl))

theorem Laws.EncodingRow.ldDtVx (x : Nibble) : Laws.EncodingRow.Statement (.ldDtVx x) :=
  encodingRow_of "LD_DT_VX" 0xF0FF 0xF015 (by decide) rfl ((formatXK_and _ _ 0xF 0x0 _ 0xFF).trans (by simp only [BitVec.ofNat_eq_ofNat, BitVec.and_zero]; rfl))

theorem Laws.EncodingRow.ldStVx (x : Nibble) : Laws.EncodingRow.Statement (.ldStVx x) :=
  encodingRow_of "LD_ST_VX" 0xF0FF 0xF018 (by decide) rfl ((formatXK_and _ _ 0xF 0x0 _ 0xFF).trans (by simp only [BitVec.ofNat_eq_ofNat, BitVec.and_zero]; rfl))

theorem Laws.EncodingRow.addIVx (x : Nibble) : Laws.EncodingRow.Statement (.addIVx x) :=
  encodingRow_of "ADD_I_VX" 0xF0FF 0xF01E (by decide) rfl ((formatXK_and _ _ 0xF 0x0 _ 0xFF).trans (by simp only [BitVec.ofNat_eq_ofNat, BitVec.and_zero]; rfl))

theorem Laws.EncodingRow.ldFVx (x : Nibble) : Laws.EncodingRow.Statement (.ldFVx x) :=
  encodingRow_of "LD_F_VX" 0xF0FF 0xF029 (by decide) rfl ((formatXK_and _ _ 0xF 0x0 _ 0xFF).trans (by simp only [BitVec.ofNat_eq_ofNat, BitVec.and_zero]; rfl))

theorem Laws.EncodingRow.ldBVx (x : Nibble) : Laws.EncodingRow.Statement (.ldBVx x) :=
  encodingRow_of "LD_B_VX" 0xF0FF 0xF033 (by decide) rfl ((formatXK_and _ _ 0xF 0x0 _ 0xFF).trans (by simp only [BitVec.ofNat_eq_ofNat, BitVec.and_zero]; rfl))

theorem Laws.EncodingRow.ldMemVx (x : Nibble) : Laws.EncodingRow.Statement (.ldMemVx x) :=
  encodingRow_of "LD_MEM_VX" 0xF0FF 0xF055 (by decide) rfl ((formatXK_and _ _ 0xF 0x0 _ 0xFF).trans (by simp only [BitVec.ofNat_eq_ofNat, BitVec.and_zero]; rfl))

theorem Laws.EncodingRow.ldVxMem (x : Nibble) : Laws.EncodingRow.Statement (.ldVxMem x) :=
  encodingRow_of "LD_VX_MEM" 0xF0FF 0xF065 (by decide) rfl ((formatXK_and _ _ 0xF 0x0 _ 0xFF).trans (by simp only [BitVec.ofNat_eq_ofNat, BitVec.and_zero]; rfl))

end Sys2Proof
end

