-- ==== Sys2Proof/Laws/Ports.lean ====
section
/-! SUPPORT. What construction and the host operations do (60_exceptions.md R187–R190, 70_reset_and_hazards.md R200–R202). -/

namespace Sys2Proof.Machine

/-! ## Construction -/

/-- R200: construction answers a core exactly for a program of at most 3584 bytes. -/
theorem construct_eq_core (p : BuildParameters) (program : List Byte) (s : State) :
    construct p program = .core s ↔ program.length ≤ 3584 ∧ s = constructedState p program := by
  unfold construct programWellFormed
  by_cases h : program.length ≤ 3584 <;> simp [h, eq_comm]

theorem construct_eq_programTooLarge (p : BuildParameters) (program : List Byte) :
    construct p program = .programTooLarge ↔ program.length > 3584 := by
  unfold construct programWellFormed
  by_cases h : program.length ≤ 3584
  · simp [h]
  · simp only [h, decide_false, Bool.false_eq_true, if_false, true_iff]
    omega

/-- R201: what each address reads as after construction. -/
theorem byteAt_constructedState (p : BuildParameters) (program : List Byte) {a : Nat} (ha : a < 4096) :
    (constructedState p program).byteAt a = constructedByte p program a := by
  show Memory.read (memoryOf _) a = _
  rw [read_memoryOf _ ha]

/-- Construction leaves memory in form. -/
theorem wf_constructedState (p : BuildParameters) (program : List Byte) : (constructedState p program).mem.wf = true := by
  show Memory.wf (memoryOf _) = true
  rw [wf_memoryOf]

/-- R202: every component but memory and the policies is as at reset. -/
theorem constructedState_fields (p : BuildParameters) (program : List Byte) :
    constructedState p program =
      { State.reset with mem := (constructedState p program).mem, policies := p.policies } := by
  simp only [constructedState]

@[simp] theorem constructedState_policies (p : BuildParameters) (program : List Byte) :
    (constructedState p program).policies = p.policies := by
  simp only [constructedState]

/-! ## Timers and keys -/

/-- R188: one tick of one timer. -/
theorem toNat_countDown (t : Byte) : (countDown t).toNat = t.toNat - 1 := by
  unfold countDown
  have := t.isLt
  split
  · simp_all
  · rename_i h
    have : t.toNat ≠ 0 := fun e => h (BitVec.eq_of_toNat_eq e)
    rw [BitVec.toNat_sub_of_le (by rw [BitVec.le_def]; simp; omega)]
    simp

/-- R189: a key event on a key that exists. -/
theorem setKey_of_lt (s : State) {k : Nat} (hk : k < 16) (down : Bool) : setKey s k down = s.setKeys (s.keys.set k down hk) := by
  simp [setKey, hk]

/-- R189: a key event on a key that does not exist does nothing. -/
theorem setKey_of_ge (s : State) {k : Nat} (hk : 16 ≤ k) (down : Bool) : setKey s k down = s := by
  simp [setKey, Nat.not_lt.2 hk]

end Sys2Proof.Machine
end

