-- ==== Sys2Proof/Tests/Slice0.lean ====
section
/-! SUPPORT. Tests. Expected results come from spec/: the encodings of 30_encoding.md R76 written out bit by bit, and the vectors
of 95_test_vectors.md, whose id each theorem names. The witnesses at the end meet the hypotheses of the statements in
Certificates/Slice0/Obligations.lean. -/

namespace Sys2Proof.Tests

open Sys2Proof.Machine

set_option Elab.async false

/-! ## Helpers -/

/-- One step of this word from this state, stored at its PC. -/
def run (s : State) (w : Word) : Host.Outcome State Fault Refusal := step (placeWord s w)

/-- The outcome is a next state of which this holds. -/
def okAnd (o : Host.Outcome State Fault Refusal) (p : State → Bool) : Bool :=
  match o with
  | .next t => p t
  | .fault _ => false
  | .refused _ => false

/-- The outcome is a fault of this kind that leaves a state of which this holds. -/
def errAnd (o : Host.Outcome State Fault Refusal) (kind : FaultKind) (p : State → Bool) : Bool :=
  match o with
  | .next _ => false
  | .fault f => f.kind == kind && p f.after
  | .refused _ => false

/-- The reset state with these policies. -/
def withPolicies (p : Policies) : State := { State.reset with policies := p }

/-- The reset state with this stack depth. -/
def withDepth (sp : Fin 17) : State := { State.reset with sp := sp }

/-- The reset state with these sprite bytes at I = 0x300 and VF = 0x77. -/
def withSprite (bytes : List Byte) : State :=
  (((State.reset.setIndex 0x300).writeBlock 0x300 bytes).getD State.reset).setReg 0xF 0x77

/-! ## Well-formedness: the one check, refusing an ill-formed program -/

theorem test_program_of_3584_bytes : programWellFormed (List.replicate 3584 0x00) = true := by
  rw [programWellFormed, List.length_replicate]; rfl

theorem test_program_of_3585_bytes_refused : programWellFormed (List.replicate 3585 0x00) = false := by
  rw [programWellFormed, List.length_replicate]; rfl

/-! ## Decoding: every constructor's word, from the patterns of R76 -/

theorem test_decode_control_flow :
    decodeWord 0b0000000011101110 = .instr .ret ∧
    decodeWord 0b0001001010100000 = .instr (.jp 0x2A0) ∧
    decodeWord 0b0010001100000000 = .instr (.call 0x300) ∧
    decodeWord 0b0011101000000101 = .instr (.seImm 0xA 0x05) ∧
    decodeWord 0b0100101000000101 = .instr (.sneImm 0xA 0x05) ∧
    decodeWord 0b0101000100100000 = .instr (.seReg 0x1 0x2) ∧
    decodeWord 0b1001000100100000 = .instr (.sneReg 0x1 0x2) ∧
    decodeWord 0b1011001100000000 = .instr (.jpV0 0x300) := by decide

theorem test_decode_alu :
    decodeWord 0b0110101000101011 = .instr (.ldImm 0xA 0x2B) ∧
    decodeWord 0b0111001100100000 = .instr (.addImm 0x3 0x20) ∧
    decodeWord 0b1000000000010000 = .instr (.ldReg 0x0 0x1) ∧
    decodeWord 0b1000000000010001 = .instr (.or 0x0 0x1) ∧
    decodeWord 0b1000000000010010 = .instr (.and 0x0 0x1) ∧
    decodeWord 0b1000000000010011 = .instr (.xor 0x0 0x1) ∧
    decodeWord 0b1000111100010100 = .instr (.addReg 0xF 0x1) ∧
    decodeWord 0b1000111100010101 = .instr (.sub 0xF 0x1) ∧
    decodeWord 0b1000111100010111 = .instr (.subn 0xF 0x1) ∧
    decodeWord 0b1000001000110110 = .instr (.shr 0x2 0x3) ∧
    decodeWord 0b1000001000111110 = .instr (.shl 0x2 0x3) ∧
    decodeWord 0b1100010100001111 = .instr (.rnd 0x5 0x0F) := by decide

theorem test_decode_index_memory :
    decodeWord 0b1010001001010000 = .instr (.ldI 0x250) ∧
    decodeWord 0b1111000100011110 = .instr (.addIVx 0x1) ∧
    decodeWord 0b1111000100101001 = .instr (.ldFVx 0x1) ∧
    decodeWord 0b1111001000110011 = .instr (.ldBVx 0x2) ∧
    decodeWord 0b1111001001010101 = .instr (.ldMemVx 0x2) ∧
    decodeWord 0b1111000101100101 = .instr (.ldVxMem 0x1) := by decide

theorem test_decode_display :
    decodeWord 0b0000000011100000 = .instr .cls ∧
    decodeWord 0b1101000000010101 = .instr (.drw 0x0 0x1 0x5) := by decide

theorem test_decode_timers_keypad :
    decodeWord 0b1110000110011110 = .instr (.skp 0x1) ∧
    decodeWord 0b1110000110100001 = .instr (.sknp 0x1) ∧
    decodeWord 0b1111001100000111 = .instr (.ldVxDt 0x3) ∧
    decodeWord 0b1111010100001010 = .instr (.ldVxK 0x5) ∧
    decodeWord 0b1111000000010101 = .instr (.ldDtVx 0x0) ∧
    decodeWord 0b1111000000011000 = .instr (.ldStVx 0x0) := by decide

/-- CY-1 to CY-6. -/
theorem test_decode_unknown :
    decodeWord 0x0000 = .unknown 0x0000 ∧ decodeWord 0x0123 = .unknown 0x0123 ∧
    decodeWord 0x5121 = .unknown 0x5121 ∧ decodeWord 0x800F = .unknown 0x800F ∧
    decodeWord 0xE000 = .unknown 0xE000 ∧ decodeWord 0xF0FF = .unknown 0xF0FF := by decide

/-- R53: the byte at the lower address is bits 15:8. -/
theorem test_bytes_are_big_endian :
    decodeBytes [0x6A, 0x2B, 0x77] = .word (.instr (.ldImm 0xA 0x2B)) [0x77] ∧
    decodeBytes [0x6A] = .truncated [0x6A] ∧ encodeBytes (.ldImm 0xA 0x2B) = [0x6A, 0x2B] := by decide

theorem test_table_word : decodeTableWord 16 0xF255 = some (.ldMemVx 0x2) ∧ decodeTableWord 16 0x5121 = none := by decide

/-! ## The written form of programs (R79) -/

/-- P3: the bytes its table gives for each line, a data line among them. -/
theorem test_assemble_P3 :
    assemble [.instr (.ldImm 0x0 0x7B), .instr (.ldI 0x300), .instr (.call 0x210), .instr (.jp 0x206), .db [0, 0, 0, 0, 0, 0, 0, 0],
      .instr (.ldBVx 0x0), .instr (.ldVxMem 0x2), .instr (.addReg 0x0 0x1), .instr .ret] =
    [0x60, 0x7B, 0xA3, 0x00, 0x22, 0x10, 0x12, 0x06, 0, 0, 0, 0, 0, 0, 0, 0, 0xF0, 0x33, 0xF2, 0x65, 0x80, 0x14, 0x00, 0xEE] := by
  decide +kernel

/-- The lines of P1, P3, P4 and P6, as their tables write them. -/
theorem test_text :
    (asmOf .cls).text = "CLS" ∧ (asmOf (.ldI 0x050)).text = "LD I, 0x050" ∧ (asmOf (.drw 0x0 0x0 0x5)).text = "DRW V0, V0, 5" ∧
    (asmOf (.ldBVx 0x0)).text = "LD B, V0" ∧ (asmOf (.ldVxMem 0x2)).text = "LD V2, [I]" ∧ (asmOf (.ldImm 0x0 0x7B)).text = "LD V0, 0x7B" ∧
    (AsmLine.db [0xFF]).text = "DB 0xFF" ∧ (asmOf (.ldVxK 0x3)).text = "LD V3, K" := by decide +kernel

/-- R78, R79: no row has these forms. -/
theorem test_no_such_form : instrOfAsm ⟨.jp, [.v 0x1, .nnn 0x300]⟩ = none ∧ instrOfAsm ⟨.subn, [.v 0x1, .nn 0x01]⟩ = none := by decide

/-! ## Control flow -/

/-- CF-1. -/
theorem test_ret : okAnd (run (((withDepth 1).setStack (State.reset.stack.set 0 0x204) 1).setPc 0x300) 0x00EE)
    (fun t => t.pc == 0x204 && t.sp == 0) = true := by decide +kernel

/-- CF-2. -/
theorem test_ret_underflow : errAnd (run (State.reset.setPc 0x300) 0x00EE) .stackUnderflow
    (fun t => t.pc == 0x302 && t.sp == 0) = true := by decide +kernel

/-- CF-6: an odd target. -/
theorem test_jp_odd : okAnd (run State.reset 0x1301) (fun t => t.pc == 0x301) = true := by decide +kernel

/-- CF-8. -/
theorem test_call_last_slot : okAnd (run (withDepth 15) 0x2300)
    (fun t => t.pc == 0x300 && t.sp == 16 && t.slot 15 == 0x202) = true := by decide +kernel

/-- CF-9. -/
theorem test_call_overflow : errAnd (run (withDepth 16) 0x2300) .stackOverflow
    (fun t => t.pc == 0x202 && t.sp == 16) = true := by decide +kernel

/-- CF-10, CF-11. -/
theorem test_se_imm : okAnd (run (State.reset.setReg 0xA 0x05) 0x3A05) (fun t => t.pc == 0x204) = true ∧
    okAnd (run (State.reset.setReg 0xA 0x06) 0x3A05) (fun t => t.pc == 0x202) = true := by decide +kernel

/-- CF-24: a skip past the top of memory. -/
theorem test_se_imm_top : okAnd (run (State.reset.setPc 0xFFC) 0x3000) (fun t => t.pc == 0x1000) = true := by decide +kernel

/-- CF-13, CF-14. -/
theorem test_sne_imm : okAnd (run (State.reset.setReg 0xA 0x06) 0x4A05) (fun t => t.pc == 0x204) = true ∧
    okAnd (run (State.reset.setReg 0xA 0x05) 0x4A05) (fun t => t.pc == 0x202) = true := by decide +kernel

/-- CF-15, CF-16. -/
theorem test_se_reg :
    okAnd (run ((State.reset.setReg 0x1 0x33).setReg 0x2 0x33) 0x5120) (fun t => t.pc == 0x204) = true ∧
    okAnd (run ((State.reset.setReg 0x1 0x33).setReg 0x2 0x34) 0x5120) (fun t => t.pc == 0x202) = true := by decide +kernel

/-- CF-18, CF-19. -/
theorem test_sne_reg :
    okAnd (run ((State.reset.setReg 0x1 0x01).setReg 0x2 0x02) 0x9120) (fun t => t.pc == 0x204) = true ∧
    okAnd (run (State.reset.setReg 0x3 0x07) 0x9330) (fun t => t.pc == 0x202) = true := by decide +kernel

/-- CF-21: the largest reachable PC. -/
theorem test_jp_v0 : okAnd (run (State.reset.setReg 0x0 0xFF) 0xBFFF) (fun t => t.pc == 0x10FE) = true := by decide +kernel

/-- CF-22. -/
theorem test_jp_v0_mask12 :
    okAnd (run ((withPolicies { defaultPolicies with bnnnMask := .mask12 }).setReg 0x0 0xFF) 0xBFFF)
      (fun t => t.pc == 0x0FE) = true := by decide +kernel

/-! ## ALU -/

/-- AL-1. -/
theorem test_ld_imm : okAnd (run State.reset 0x6A2B) (fun t => t.reg 0xA == 0x2B && t.pc == 0x202) = true := by decide +kernel

/-- AL-3, AL-5: VF is no flag of 7xnn. -/
theorem test_add_imm :
    okAnd (run ((State.reset.setReg 0x3 0xF0).setReg 0xF 0x77) 0x7320) (fun t => t.reg 0x3 == 0x10 && t.reg 0xF == 0x77) = true ∧
    okAnd (run (State.reset.setReg 0xF 0xFE) 0x7F03) (fun t => t.reg 0xF == 0x01) = true := by decide +kernel

/-- AL-6. -/
theorem test_ld_reg : okAnd (run (State.reset.setReg 0x1 0x44) 0x8010) (fun t => t.reg 0x0 == 0x44) = true := by decide +kernel

/-- AL-7: VF is no flag of 8xy1. -/
theorem test_or : okAnd (run (((State.reset.setReg 0x0 0x0F).setReg 0x1 0xF0).setReg 0xF 0x05) 0x8011)
    (fun t => t.reg 0x0 == 0xFF && t.reg 0xF == 0x05) = true := by decide +kernel

/-- AL-8. -/
theorem test_and : okAnd (run ((State.reset.setReg 0x0 0x3C).setReg 0x1 0x0F) 0x8012) (fun t => t.reg 0x0 == 0x0C) = true := by
  decide +kernel

/-- AL-9, AL-10. -/
theorem test_xor :
    okAnd (run ((State.reset.setReg 0x0 0xFF).setReg 0x1 0x0F) 0x8013) (fun t => t.reg 0x0 == 0xF0) = true ∧
    okAnd (run (State.reset.setReg 0x4 0x5A) 0x8443) (fun t => t.reg 0x4 == 0x00) = true := by decide +kernel

/-- AL-11, AL-12. -/
theorem test_add_reg :
    okAnd (run ((State.reset.setReg 0x0 0xFF).setReg 0x1 0x01) 0x8014) (fun t => t.reg 0x0 == 0x00 && t.reg 0xF == 1) = true ∧
    okAnd (run (((State.reset.setReg 0x0 0xFE).setReg 0x1 0x01).setReg 0xF 0x01) 0x8014)
      (fun t => t.reg 0x0 == 0xFF && t.reg 0xF == 0) = true := by decide +kernel

/-- AL-14, AL-15: VF as the destination and as the addend. -/
theorem test_add_reg_VF :
    okAnd (run ((State.reset.setReg 0xF 0xFF).setReg 0x1 0x01) 0x8F14) (fun t => t.reg 0xF == 1) = true ∧
    okAnd (run ((State.reset.setReg 0x0 0x10).setReg 0xF 0x01) 0x80F4) (fun t => t.reg 0x0 == 0x11 && t.reg 0xF == 0) = true := by
  decide +kernel

/-- AL-17, AL-19. -/
theorem test_sub :
    okAnd (run (((State.reset.setReg 0x0 0x05).setReg 0x1 0x0A).setReg 0xF 0x77) 0x8015)
      (fun t => t.reg 0x0 == 0xFB && t.reg 0xF == 0) = true ∧
    okAnd (run ((State.reset.setReg 0x0 0x07).setReg 0x1 0x07) 0x8015) (fun t => t.reg 0x0 == 0x00 && t.reg 0xF == 1) = true := by
  decide +kernel

/-- AL-20. -/
theorem test_sub_VF : okAnd (run ((State.reset.setReg 0xF 0x03).setReg 0x1 0x05) 0x8F15) (fun t => t.reg 0xF == 0) = true := by
  decide +kernel

/-- AL-21, AL-22. -/
theorem test_subn :
    okAnd (run ((State.reset.setReg 0x0 0x05).setReg 0x1 0x0A) 0x8017) (fun t => t.reg 0x0 == 0x05 && t.reg 0xF == 1) = true ∧
    okAnd (run (((State.reset.setReg 0x0 0x0A).setReg 0x1 0x05).setReg 0xF 0x77) 0x8017)
      (fun t => t.reg 0x0 == 0xFB && t.reg 0xF == 0) = true := by decide +kernel

/-- AL-25, AL-26: Vy is ignored, the flag is written last. -/
theorem test_shr :
    okAnd (run ((State.reset.setReg 0x2 0x01).setReg 0x3 0xFF) 0x8236) (fun t => t.reg 0x2 == 0x00 && t.reg 0xF == 1) = true ∧
    okAnd (run (State.reset.setReg 0xF 0x03) 0x8FF6) (fun t => t.reg 0xF == 1) = true := by decide +kernel

/-- AL-27, AL-29. -/
theorem test_shl :
    okAnd (run (State.reset.setReg 0x2 0x81) 0x820E) (fun t => t.reg 0x2 == 0x02 && t.reg 0xF == 1) = true ∧
    okAnd (run (State.reset.setReg 0xF 0x40) 0x8F0E) (fun t => t.reg 0xF == 0) = true := by decide +kernel

/-- R131: a mask of 0 gives 0 whatever the draw (AL-31), and the draw is counted. -/
theorem test_rnd_mask_zero (s : State) : okAnd (execRnd 0x5 0x00 s) (fun t => t.reg 0x5 == 0x00 && t.draws == s.draws + 1) = true := by
  simp [okAnd, execRnd, State.countDraw, State.setReg, State.reg]

/-! ## Index register and memory -/

/-- IM-1. -/
theorem test_ld_i : okAnd (run State.reset 0xA250) (fun t => t.i == 0x250) = true := by decide +kernel

/-- IM-3, IM-4. -/
theorem test_add_i :
    okAnd (run ((State.reset.setIndex 0xFFF).setReg 0x1 0x01) 0xF11E) (fun t => t.i == 0x000 && t.reg 0xF == 1) = true ∧
    okAnd (run ((State.reset.setIndex 0xFFE).setReg 0xF 0x05) 0xFF1E) (fun t => t.i == 0x003 && t.reg 0xF == 1) = true := by
  decide +kernel

/-- IM-5, IM-8. -/
theorem test_ld_f : okAnd (run (State.reset.setReg 0x1 0x0A) 0xF129) (fun t => t.i == 0x082) = true ∧
    okAnd (run (State.reset.setReg 0x1 0xFF) 0xF129) (fun t => t.i == 0x54B) = true := by decide +kernel

/-- IM-9, IM-12. -/
theorem test_bcd :
    okAnd (run ((State.reset.setIndex 0x300).setReg 0x2 0xFF) 0xF233)
      (fun t => t.byteAt 0x300 == 0x02 && t.byteAt 0x301 == 0x05 && t.byteAt 0x302 == 0x05 && t.i == 0x300) = true ∧
    okAnd (run ((State.reset.setIndex 0xFFD).setReg 0x2 0x09) 0xF233) (fun t => t.byteAt 0xFFF == 0x09) = true := by decide +kernel

/-- IM-13. -/
theorem test_bcd_out_of_bounds : errAnd (run ((State.reset.setIndex 0xFFE).setReg 0x2 0x09) 0xF233) .outOfBoundsAddress
    (fun t => t.pc == 0x202 && t.byteAt 0xFFE == 0x00 && t.byteAt 0xFFF == 0x00) = true := by decide +kernel

/-- IM-14, IM-15. -/
theorem test_store_block :
    okAnd (run ((((State.reset.setIndex 0x300).setReg 0x0 0x01).setReg 0x1 0x02).setReg 0x2 0x03) 0xF255)
      (fun t => t.byteAt 0x300 == 0x01 && t.byteAt 0x301 == 0x02 && t.byteAt 0x302 == 0x03 && t.i == 0x300) = true ∧
    okAnd (run ((withPolicies { defaultPolicies with loadStoreAdvancesI := true }).setIndex 0x300) 0xF255)
      (fun t => t.i == 0x303) = true := by decide +kernel

/-- IM-16, IM-17. -/
theorem test_store_block_top :
    okAnd (run ((State.reset.setIndex 0xFF0).setReg 0xF 0xEE) 0xFF55) (fun t => t.byteAt 0xFFF == 0xEE) = true ∧
    errAnd (run ((State.reset.setIndex 0xFF1).setReg 0x0 0x11) 0xFF55) .outOfBoundsAddress
      (fun t => t.pc == 0x202 && t.byteAt 0xFF1 == 0x00) = true := by decide +kernel

/-- IM-22: the first sixteen font bytes. -/
theorem test_load_block : okAnd (run (State.reset.setIndex 0x050) 0xFF65)
    (fun t => t.reg 0x0 == 0xF0 && t.reg 0x1 == 0x90 && t.reg 0x5 == 0x20 && t.reg 0xF == 0xF0 && t.i == 0x050) = true := by
  decide +kernel

/-- IM-20, IM-21. -/
theorem test_load_block_top :
    okAnd (run (State.reset.setIndex 0xFFF) 0xF065) (fun t => t.pc == 0x202) = true ∧
    errAnd (run ((State.reset.setIndex 0xFFF).setReg 0x0 0x11) 0xF165) .outOfBoundsAddress
      (fun t => t.pc == 0x202 && t.reg 0x0 == 0x11) = true := by decide +kernel

/-! ## Display -/

/-- DS-1. -/
theorem test_cls : okAnd (run (State.reset.setScreen (setCell (setCell blankScreen 5 5 true) 63 31 true)) 0x00E0)
    (fun t => !t.cell 5 5 && !t.cell 63 31 && !t.cell 0 0) = true := by decide +kernel

/-- DS-12: the glyph "0" of the default font. -/
theorem test_draw_glyph : okAnd (run ((State.reset.setIndex 0x050).setReg 0xF 0x77) 0xD005)
    (fun t => t.cell 0 0 && t.cell 3 0 && t.cell 0 2 && !t.cell 1 2 && t.cell 3 2 && t.cell 2 4 && !t.cell 4 4 && !t.cell 0 5 &&
      t.reg 0xF == 0) = true := by decide +kernel

/-- DS-14, DS-15: a collision in an asymmetric row, and clipping at the corner. -/
theorem test_draw_collision_and_clipping :
    okAnd (run ((withSprite [0xF0]).setScreen (setCell blankScreen 1 0 true)) 0xD011)
      (fun t => t.cell 0 0 && !t.cell 1 0 && t.cell 2 0 && t.cell 3 0 && !t.cell 4 0 && t.reg 0xF == 1) = true ∧
    okAnd (run (((withSprite [0xFF, 0xFF]).setReg 0x0 60).setReg 0x1 31) 0xD012)
      (fun t => !t.cell 59 31 && t.cell 60 31 && t.cell 63 31 && !t.cell 0 31 && !t.cell 60 0 && t.reg 0xF == 0) = true := by
  decide +kernel

/-- DS-5, DS-6: an off-screen start under the two policies. -/
theorem test_draw_start :
    okAnd (run ((withSprite [0xFF]).setReg 0x0 70) 0xD011) (fun t => !t.cell 6 0 && !t.cell 63 0 && !t.cell 0 0 && t.reg 0xF == 0) = true ∧
    okAnd (run { (withSprite [0xFF]).setReg 0x0 70 with policies := { defaultPolicies with drawStart := .wrap } } 0xD011)
      (fun t => !t.cell 5 0 && t.cell 6 0 && t.cell 13 0 && !t.cell 14 0) = true := by decide +kernel

/-- DS-9, DS-10: no rows, and rows past the top of memory. -/
theorem test_draw_bounds :
    okAnd (run (State.reset.setReg 0xF 0x01) 0xD010) (fun t => t.reg 0xF == 0 && !t.cell 0 0) = true ∧
    errAnd (run ((State.reset.setIndex 0xFFE).setReg 0xF 0x07) 0xD013) .outOfBoundsAddress
      (fun t => t.pc == 0x202 && t.reg 0xF == 0x07) = true := by decide +kernel

/-! ## Keypad and timers -/

/-- TK-1, TK-3. -/
theorem test_skp :
    okAnd (run ((pressKey State.reset 5).setReg 0x1 0x05) 0xE19E) (fun t => t.pc == 0x204) = true ∧
    okAnd (run ((pressKey State.reset 5).setReg 0x1 0x15) 0xE19E) (fun t => t.pc == 0x202) = true := by decide +kernel

/-- TK-5, TK-6. -/
theorem test_sknp :
    okAnd (run ((pressKey State.reset 5).setReg 0x1 0x05) 0xE1A1) (fun t => t.pc == 0x202) = true ∧
    okAnd (run (State.reset.setReg 0x1 0x15) 0xE1A1) (fun t => t.pc == 0x204) = true := by decide +kernel

/-- TK-7. -/
theorem test_ld_vx_dt : okAnd (run (State.reset.setDelay 0x3C) 0xF307) (fun t => t.reg 0x3 == 0x3C) = true := by decide +kernel

/-- TK-8. -/
theorem test_key_wait_lowest : okAnd (run ((pressKey (pressKey State.reset 7) 3).setPc 0x210) 0xF50A)
    (fun t => t.reg 0x5 == 0x03 && t.pc == 0x212) = true := by decide +kernel

/-- TK-9. -/
theorem test_key_wait_blocks : okAnd (run (State.reset.setPc 0x210) 0xF50A)
    (fun t => t.pc == 0x210 && t.reg 0x5 == 0x00) = true := by decide +kernel

/-- TK-11. -/
theorem test_ld_dt : okAnd (run (State.reset.setReg 0x0 0x3C) 0xF015) (fun t => t.dt == 0x3C && t.st == 0) = true := by decide +kernel

/-- TK-12. -/
theorem test_ld_st : okAnd (run (State.reset.setReg 0x0 0x05) 0xF018) (fun t => t.st == 0x05 && t.dt == 0) = true := by decide +kernel

/-! ## The step, the host operations and construction -/

/-- CY-1, CY-7. -/
theorem test_unknown_word : okAnd (run State.reset 0x0000) (fun t => t.pc == 0x202) = true ∧
    errAnd (run (withPolicies { defaultPolicies with unknownOpcode := .fatal }) 0x5121) .unknownOpcode (fun t => t.pc == 0x202) = true := by
  decide +kernel

/-- CY-9, CY-10, CY-12. -/
theorem test_fetch_edges : okAnd (run (State.reset.setPc 0xFFE) 0x00E0) (fun t => t.pc == 0x1000) = true ∧
    errAnd (step (State.reset.setPc 0xFFF)) .outOfBoundsAddress (fun t => t.pc == 0xFFF) = true ∧
    okAnd (run (State.reset.setPc 0x201) 0x6A01) (fun t => t.reg 0xA == 0x01 && t.pc == 0x203) = true := by decide +kernel

/-- H-2, H-3. -/
theorem test_tick_timers :
    tickTimers ((State.reset.setDelay 5).setSound 1) = (State.reset.setDelay 4).setSound 0 ∧
    tickTimers (State.reset.setSound 0xFF) = State.reset.setSound 0xFE := by decide +kernel

/-- H-4, H-5, H-7. -/
theorem test_key_events : (pressKey State.reset 3).keyDown 3 = true ∧ releaseKey (pressKey State.reset 3) 3 = State.reset ∧
    pressKey State.reset 16 = State.reset := by decide +kernel

/-- L1-6: the host goes on after a StackOverflow, from the state after it. -/
theorem test_host_goes_on :
    (serve (placeWord (withDepth 16) 0x2200) .step).1 = .err .stackOverflow ∧
    (serve (serve (placeWord (withDepth 16) 0x2200) .step).2 .step).1 = .ok ∧
    (serve (serve (placeWord (withDepth 16) 0x2200) .step).2 .step).2.pc = 0x204 := by decide +kernel

/-- R-4: `new([0x12])` runs a jump to itself. -/
theorem test_construct : okAnd (step (constructedState defaultParameters [0x12])) (fun t => t.pc == 0x200) = true := by
  decide +kernel

/-- R58: the font stands at 0x050–0x09F and nothing else is loaded. -/
theorem test_initial_memory : State.reset.byteAt 0x04F = 0x00 ∧ State.reset.byteAt 0x050 = 0xF0 ∧ State.reset.byteAt 0x082 = 0xF0 ∧
    State.reset.byteAt 0x086 = 0x90 ∧ State.reset.byteAt 0x09F = 0x80 ∧ State.reset.byteAt 0x0A0 = 0x00 := by decide +kernel

/-- Writing back what an unlisted address reads as removes the entry. -/
theorem test_memory_form : Memory.write (Memory.write [] 0x300 0x12) 0x300 0x00 = [] ∧ Memory.wf [(0x300, 0x00)] = false ∧
    Memory.wf [(0x301, 0x01), (0x300, 0x01)] = false := by decide +kernel

/-! ## Witnesses: each statement's hypotheses are met, clause by clause -/

theorem witness_EncodeOfDecode : decodeWord 0xFF65 = .instr (.ldVxMem 0xF) ∧ decodeWord 0xFFFF = .unknown 0xFFFF := by decide

theorem witness_DecodeFollowsOpcodeMap :
    (⟨"ADD_REG", 0xF00F, 0x8004⟩ ∈ opcodeMap ∧ (0x8F14 : Word) &&& 0xF00F = 0x8004) ∧
    (∀ r ∈ opcodeMap, (0x8F1F : Word) &&& r.mask ≠ r.bits) := by decide +kernel

theorem witness_StepRunsDecodedInstruction :
    (placeWord (State.reset.setPc 0xFFE) 0x6A2B).pc.toNat + 1 ≤ 0xFFF ∧
    decodeWord (wordOfBytes ((placeWord (State.reset.setPc 0xFFE) 0x6A2B).byteAt 0xFFE)
      ((placeWord (State.reset.setPc 0xFFE) 0x6A2B).byteAt 0xFFF)) = .instr (.ldImm 0xA 0x2B) := by decide +kernel

theorem witness_FetchReadsOrFaults : (State.reset.setPc 0xFFE).pc.toNat + 1 ≤ 0xFFF ∧ (State.reset.setPc 0xFFF).pc.toNat + 1 > 0xFFF := by
  decide +kernel

theorem witness_UnknownWordFollowsPolicy :
    (fetchWord State.reset = some 0x0000 ∧ decodeWord 0x0000 = .unknown 0x0000 ∧ State.reset.policies.unknownOpcode = .noOp) ∧
    (fetchWord (withPolicies { defaultPolicies with unknownOpcode := .fatal }) = some 0x0000 ∧
      (withPolicies { defaultPolicies with unknownOpcode := .fatal }).policies.unknownOpcode = .fatal) := by decide +kernel

theorem witness_FaultsArePrecise :
    step (State.reset.setPc 0xFFF) = .fault (.outOfBoundsAddress (State.reset.setPc 0xFFF)) ∧
    step (placeWord State.reset 0x00EE) = .fault (.stackUnderflow ((placeWord State.reset 0x00EE).setPc 0x202)) := ⟨rfl, rfl⟩

theorem witness_FaultConditions :
    exec (.call 0x300) (withDepth 16) = .fault (.stackOverflow (withDepth 16)) ∧
    exec .ret (withDepth 0) = .fault (.stackUnderflow (withDepth 0)) ∧
    exec (.drw 0x0 0x0 0x2) (State.reset.setIndex 0xFFF) = .fault (.outOfBoundsAddress (State.reset.setIndex 0xFFF)) ∧
    exec (.ldBVx 0x0) (State.reset.setIndex 0xFFE) = .fault (.outOfBoundsAddress (State.reset.setIndex 0xFFE)) ∧
    exec (.ldMemVx 0x1) (State.reset.setIndex 0xFFF) = .fault (.outOfBoundsAddress (State.reset.setIndex 0xFFF)) ∧
    exec (.ldVxMem 0x1) (State.reset.setIndex 0xFFF) = .fault (.outOfBoundsAddress (State.reset.setIndex 0xFFF)) :=
  ⟨rfl, rfl, rfl, rfl, rfl, rfl⟩

theorem witness_ProgramCounterMovement :
    ((fetchWord (placeWord State.reset 0x3000)).map decodeWord = some (.instr (.seImm 0x0 0x00)) ∧
      step (placeWord State.reset 0x3000) = .next ((placeWord State.reset 0x3000).setPc 0x204)) ∧
    ((fetchWord State.reset).map decodeWord = some (.unknown 0x0000) ∧ step State.reset = .next (State.reset.setPc 0x202)) :=
  ⟨⟨by decide +kernel, rfl⟩, by decide +kernel, rfl⟩

/-- The invariant's parts at reset, where a step completes, and one step before a fault. -/
theorem reset_meets_Inv (pc : Word) (h : pc.toNat ≤ pcMax) : (State.reset.setPc pc).Inv :=
  ⟨rfl, h, fun k hk => absurd hk (Nat.not_lt_zero k)⟩

theorem witness_StepKeepsInvariant :
    ((State.reset.setPc 0x200).Inv ∧ step (State.reset.setPc 0x200) = .next (State.reset.setPc 0x202)) ∧
    ((State.reset.setPc 0x10FE).Inv ∧ step (State.reset.setPc 0x10FE) = .fault (.outOfBoundsAddress (State.reset.setPc 0x10FE))) :=
  ⟨⟨reset_meets_Inv _ (by decide), rfl⟩, reset_meets_Inv _ (by decide), rfl⟩

theorem witness_ReachableStatesMeetInvariant :
    Reachable (constructedState defaultParameters [0x80, 0x14]) ∧
    (fetchWord (constructedState defaultParameters [0x80, 0x14])).map decodeWord = some (.instr (.addReg 0x0 0x1)) ∧
    producesFlag (.addReg 0x0 0x1) = true ∧
    okAnd (step (constructedState defaultParameters [0x80, 0x14])) (fun t => t.reg 0xF == 0) = true :=
  ⟨.built defaultParameters [0x80, 0x14] _ rfl, by decide +kernel, rfl, by decide +kernel⟩

theorem witness_MemoryFormIsUnique : Memory.wf [(0x050, 0x00), (0xFFF, 0x01)] = true ∧
    Memory.wf (Memory.write (Memory.write [] 0xFFF 0x01) 0x050 0x00) = true ∧
    ∀ a, a ≤ 0xFFF → Memory.read [(0x050, 0x00), (0xFFF, 0x01)] a =
      Memory.read (Memory.write (Memory.write [] 0xFFF 0x01) 0x050 0x00) a := ⟨rfl, rfl, fun _ _ => rfl⟩

theorem witness_FlagRegisterRules :
    (∃ t, exec (.addReg 0xF 0x1) State.reset = .next t) ∧ producesFlag (.addReg 0xF 0x1) = true ∧
    (∃ t, exec (.ldVxMem 0xF) State.reset = .next t) ∧ producesFlag (.ldVxMem 0xF) = false :=
  ⟨⟨_, rfl⟩, rfl, ⟨_, rfl⟩, rfl⟩

theorem witness_OnlyTwoInstructionsWriteMemory :
    okAnd (run ((State.reset.setIndex 0x300).setReg 0x0 0x11) 0xF055)
      (fun t => t.mem != (placeWord ((State.reset.setIndex 0x300).setReg 0x0 0x11) 0xF055).mem) = true ∧
    PortOp.tickTimers ≠ PortOp.step := by decide +kernel

theorem witness_DevicesMoveOnlyByTheirInstructions :
    okAnd (run (State.reset.setReg 0x0 0x3C) 0xF015) (fun t => t.dt != 0) = true ∧
    okAnd (run (State.reset.setReg 0x0 0x3C) 0xF018) (fun t => t.st != 0) = true ∧
    okAnd (run (withSprite [0xFF]) 0xD001) (fun t => t.fb != blankScreen) = true ∧
    okAnd (run State.reset 0xC000) (fun t => t.draws != 0) = true := by decide +kernel

theorem witness_StaleSlotsAreNotRead :
    SameButStale (State.reset.setPc 0xFFF) ((State.reset.setPc 0xFFF).setStack (State.reset.stack.set 0 0x1234) 0) ∧
    SameButStale State.reset (State.reset.setStack (State.reset.stack.set 15 0x1234) 0) ∧
    (∃ t, step State.reset = .next t) ∧ ∃ f, step (State.reset.setPc 0xFFF) = .fault f :=
  ⟨⟨rfl, fun k hk => absurd hk (Nat.not_lt_zero k)⟩, ⟨rfl, fun k hk => absurd hk (Nat.not_lt_zero k)⟩, ⟨_, rfl⟩, _, rfl⟩

theorem witness_SoundTimerIsNotRead : ∃ t, step (placeWord State.reset 0xF018) = .next t := ⟨_, rfl⟩

theorem witness_FetchSeesEarlierStore :
    (State.reset.setIndex 0xFFE).mem.wf = true ∧ 1 ≤ (0x1 : Nibble).toNat ∧
    (State.reset.setIndex 0xFFE).i.toNat + (0x1 : Nibble).toNat ≤ 0xFFF := by decide

theorem witness_JumpWithOffset : State.reset.policies.bnnnMask = .unmasked ∧
    (withPolicies { defaultPolicies with bnnnMask := .mask12 }).policies.bnnnMask = .mask12 := by decide

theorem witness_CallPushesAndJumps : (withDepth 15).sp.val < 16 ∧ (withDepth 16).sp.val = 16 := by decide

theorem witness_ReturnPops : 0 < (withDepth 1).sp.val ∧ (withDepth 0).sp.val = 0 := by decide

theorem witness_StaleSlotsKeepTheirValue : (withDepth 15).sp.val < 16 ∧ 0 < (withDepth 16).sp.val := by decide

theorem witness_AssemblyForms : asmOf (.shr 0xF 0xF) = asmOf (.shr 0xF 0xF) ∧ instrOfAsm ⟨.jp, [.v 0x0, .nnn 0xFFF]⟩ = some (.jpV0 0xFFF) ∧
    encode (.shr 0xF 0xF) = 0x8FF6 ∧ encode (.shl 0xF 0xF) = 0x8FFE := by decide

theorem witness_CallThenReturn : (withDepth 15).sp.val < 16 := by decide

/-- P7: a CALL of its own address, sixteen times. -/
theorem witness_SeventeenthCallOverflows :
    ∃ f : Nat → State, (f 0).sp.val = 0 ∧ (∀ k, k < 16 → f (k + 1) = (serve (f k) .step).2) ∧
      ∀ k, k ≤ 16 → ∃ nnn, (fetchWord (f k)).map decodeWord = some (.instr (.call nnn)) := by
  refine ⟨fun k => serveAll (placeWord State.reset 0x2200) (List.replicate k .step), rfl, ?_, ?_⟩
  · decide +kernel
  · have h : ∀ k, k ≤ 16 → (fetchWord (serveAll (placeWord State.reset 0x2200) (List.replicate k .step))).map decodeWord =
        some (.instr (.call 0x200)) := by decide +kernel
    exact fun k hk => ⟨_, h k hk⟩

theorem witness_RegisterSkips : State.reset.reg 0x0 = 0x00 ∧ State.reset.reg 0x0 ≠ 0x01 ∧
    (State.reset.setReg 0x1 0x01).reg 0x0 ≠ (State.reset.setReg 0x1 0x01).reg 0x1 := by decide

theorem witness_SelfJumpRepeats : atSelfJump (placeWord State.reset 0x1200) := ⟨0x200, by decide +kernel, rfl⟩

theorem witness_flag_destinations : (0xE : Nibble) ≠ 0xF ∧ (0xF : Nibble) = 0xF := by decide

theorem witness_StoreDecimalDigits : (State.reset.setIndex 0xFFD).mem.wf = true ∧ (State.reset.setIndex 0xFFD).i.toNat ≤ 0xFFD ∧
    (State.reset.setIndex 0xFFE).i.toNat ≥ 0xFFE := by decide

theorem witness_StoreRegisterBlock :
    (State.reset.setIndex 0xFF0).mem.wf = true ∧ (State.reset.setIndex 0xFF0).i.toNat + (0xF : Nibble).toNat ≤ 0xFFF ∧
    (State.reset.setIndex 0xFF1).i.toNat + (0xF : Nibble).toNat > 0xFFF ∧
    (withPolicies { defaultPolicies with loadStoreAdvancesI := true }).policies.loadStoreAdvancesI = true := by decide

theorem witness_LoadRegisterBlock :
    (State.reset.setIndex 0xFFF).i.toNat + (0x0 : Nibble).toNat ≤ 0xFFF ∧
    (State.reset.setIndex 0xFFF).i.toNat + (0x1 : Nibble).toNat > 0xFFF ∧
    (withPolicies { defaultPolicies with loadStoreAdvancesI := true }).policies.loadStoreAdvancesI = true := by decide

theorem witness_DrawTogglesCells :
    ((0x0 : Nibble).toNat = 0 ∨ (State.reset.setIndex 0xFFF).i.toNat + (0x0 : Nibble).toNat - 1 ≤ 0xFFF) ∧
    (State.reset.setIndex 0xFF1).i.toNat + (0xF : Nibble).toNat - 1 ≤ 0xFFF ∧
    ((0xF : Nibble).toNat ≠ 0 ∧ (State.reset.setIndex 0xFF2).i.toNat + (0xF : Nibble).toNat - 1 > 0xFFF) ∧
    spriteOn (withSprite [0x01]) 0x0 0x0 0x1 7 0 ∧ ¬ spriteOn (withSprite [0x01]) 0x0 0x0 0x1 0 0 ∧
    ((withSprite [0x01]).setScreen (setCell blankScreen 7 0 true)).cell 7 0 = true := by
  refine ⟨.inl rfl, by decide, by decide, ?_, ?_, by decide +kernel⟩
  · unfold spriteOn; decide +kernel
  · unfold spriteOn; decide +kernel

theorem witness_CollisionFlag :
    ((0x1 : Nibble).toNat = 0 ∨ (State.reset.setIndex 0xFFF).i.toNat + (0x1 : Nibble).toNat - 1 ≤ 0xFFF) ∧
    okAnd (run ((withSprite [0xF0]).setScreen (setCell blankScreen 1 0 true)) 0xD011) (fun t => !t.cell 1 0) = true ∧
    okAnd (run (withSprite [0xF0]) 0xD011) (fun t => t.cell 1 0) = true := by decide +kernel

theorem witness_DrawTwiceRestoresScreen : (0x0 : Nibble) ≠ 0xF ∧ (0x1 : Nibble) ≠ 0xF ∧
    (State.reset.setIndex 0xFF1).i.toNat + (0xF : Nibble).toNat - 1 ≤ 0xFFF := by decide

theorem witness_KeySkips : ((State.reset.setReg 0x1 0x0F).reg 0x1).toNat < 16 ∧ 16 ≤ ((State.reset.setReg 0x1 0x10).reg 0x1).toNat := by
  decide

theorem witness_KeyWait :
    ((pressKey (pressKey State.reset 15) 3).keys[3] = true ∧ ∀ (j : Nat) (hj : j < 3), (pressKey (pressKey State.reset 15) 3).keys[j] = false) ∧
    ∀ (k : Nat) (h : k < 16), State.reset.keys[k] = false := by decide +kernel

theorem witness_BlockedKeyWaitRepeats :
    (fetchWord (placeWord State.reset 0xF50A)).map decodeWord = some (.instr (.ldVxK 0x5)) ∧
    ∀ (k : Nat) (h : k < 16), (placeWord State.reset 0xF50A).keys[k] = false := by decide +kernel

theorem witness_KeyEvents : 15 < 16 ∧ 16 ≤ 16 := by decide

theorem witness_FetchFaultRepeats : (State.reset.setPc 0xFFF).pc.toNat + 1 > 0xFFF := by decide

theorem witness_ConstructionState : (List.replicate 3584 (0x00 : Byte)).length ≤ 3584 ∧ (List.replicate 3585 (0x00 : Byte)).length > 3584 := by
  rw [List.length_replicate, List.length_replicate]; decide

theorem witness_FirstFetchAfterConstruction : ([] : List Byte).length ≤ 3584 ∧ ([0x12] : List Byte).length ≤ 3584 := by decide

end Sys2Proof.Tests
end

/-! SUPPORT. How a step moves PC (10_state.md R26): which instructions write it, what they write, and where a fault leaves it. -/

namespace Sys2Proof.Machine

/-! ## The step, by what the word at PC decodes to (R93) -/

theorem step_of_decode {s : State} {d : Decoded} (h : (fetchWord s).map decodeWord = some d) :
    step s = execDecoded d s.advancePc := by
  obtain ⟨w, hw, rfl⟩ := Option.map_eq_some_iff.1 h
  simp only [step, hw]

theorem step_of_decode_instr {s : State} {i : Instr} (h : (fetchWord s).map decodeWord = some (.instr i)) :
    step s = exec i s.advancePc := step_of_decode h

theorem step_of_decode_unknown {s : State} {w : Word} (h : (fetchWord s).map decodeWord = some (.unknown w)) :
    step s = execUnknown s.advancePc := step_of_decode h

/-! ## Faults leave the state the instruction started in (R91, R95) -/

theorem after_of_exec_fault {i : Instr} {s : State} {f : Fault} (h : exec i s = .fault f) : f.after = s := by
  cases i with
  | ret | call | drw | ldBVx | ldMemVx | ldVxMem =>
    obtain ⟨-, -, hafter⟩ := nextOr_eq_fault h
    exact hafter
  | ldVxK x =>
    simp only [exec, execLdVxK] at h
    split at h <;> cases h
  | _ => cases h

theorem after_of_raise {kind : FaultKind} {s : State} {f : Fault} (h : raise kind s = .fault f) : f.after = s := by
  cases kind <;> (cases h; rfl)

theorem after_of_execDecoded_fault {d : Decoded} {s : State} {f : Fault} (h : execDecoded d s = .fault f) :
    f.after = s := by
  cases d with
  | instr i => exact after_of_exec_fault h
  | unknown w =>
    simp only [execDecoded, execUnknown] at h
    split at h
    · cases h
    · exact after_of_raise h

/-- R182: a fetch fault leaves the state as it was, any other leaves it after the fetch advance. -/
theorem after_of_step_fault {s : State} {f : Fault} (h : step s = .fault f) :
    f.after = if s.pc.toNat + 1 > 0xFFF then s else s.advancePc := by
  unfold step at h
  split at h
  next hw =>
    rw [if_pos (by have := (fetchWord_eq_none s).1 hw; omega)]
    exact after_of_raise h
  next w hw =>
    obtain ⟨hpc, -⟩ := (fetchWord_eq_some s w).1 hw
    rw [if_neg (by omega)]
    exact after_of_execDecoded_fault h

/-! ## What each operation leaves in PC -/

theorem pc_of_execUnknown_next {s t : State} (h : execUnknown s = .next t) : t.pc = s.pc := by
  unfold execUnknown at h
  split at h
  · cases h; rfl
  · exact absurd h (raise_ne_next _ _ _)

@[simp] theorem State.drawSprite_pc (s : State) (x y : Nibble) (rows : List Byte) : (s.drawSprite x y rows).pc = s.pc := rfl

@[simp] theorem State.advancePc_lowestKey (s : State) : s.advancePc.lowestKey = s.lowestKey := rfl

/-- R100: a skip from the state after the fetch advance goes past the next instruction. -/
theorem State.pc_skipIf_advancePc (s : State) (skip : Bool) :
    (s.advancePc.skipIf skip).pc = if skip then s.pc + 4 else s.pc + 2 := by
  rw [State.skipIf_pc, State.advancePc_pc, BitVec.add_assoc]
  rfl

theorem jumpTarget_eq_ofNat (nnn : Addr) : jumpTarget nnn = BitVec.ofNat 16 nnn.toNat := (BitVec.ofNat_toNat 16 nnn).symm

theorem offsetTarget_eq_ofNat (mask : BnnnMask) (nnn : Addr) (v0 : Byte) :
    offsetTarget mask nnn v0 =
      BitVec.ofNat 16 (if mask = .mask12 then (nnn.toNat + v0.toNat) % 4096 else nnn.toNat + v0.toNat) := by
  cases mask <;> rfl

theorem pc_of_execRet_next {s t : State} (h : execRet s = .next t) : t.pc = s.slot (s.sp.val - 1) := by
  obtain ⟨popped, hpop, rfl⟩ := Option.map_eq_some_iff.1 ((nextOr_eq_next ..).1 h)
  obtain ⟨-, rfl⟩ := (State.pop_eq_some ..).1 hpop
  rfl

theorem pc_of_execCall_next {nnn : Addr} {s t : State} (h : execCall nnn s = .next t) : t.pc = jumpTarget nnn := by
  obtain ⟨pushed, -, rfl⟩ := Option.map_eq_some_iff.1 ((nextOr_eq_next ..).1 h)
  rfl

theorem pc_of_execLdVxK_next {x : Nibble} {s t : State} (h : execLdVxK x s = .next t) :
    t.pc = if s.lowestKey = none then s.pc - 2 else s.pc := by
  unfold execLdVxK at h
  split at h <;> (rename_i hk; cases h; simp [hk])

/-! ## The instructions that write PC, and those that leave it alone -/

/-- R26: the instructions that write PC themselves, beyond the fetch advance. -/
def writesPc : Instr → Bool
  | .ret | .jp _ | .call _ | .jpV0 _ | .ldVxK _ => true
  | .seImm _ _ | .sneImm _ _ | .seReg _ _ | .sneReg _ _ | .skp _ | .sknp _ => true
  | _ => false

theorem pc_of_exec_next_of_not_writesPc {i : Instr} {s t : State} (hi : writesPc i = false) (h : exec i s = .next t) :
    t.pc = s.pc := by
  cases i with
  | ret | jp | call | jpV0 | ldVxK | seImm | sneImm | seReg | sneReg | skp | sknp => cases hi
  | drw x y n =>
    obtain ⟨rows, -, rfl⟩ := Option.map_eq_some_iff.1 ((nextOr_eq_next ..).1 h)
    simp
  | ldBVx x =>
    obtain ⟨-, rfl⟩ := (State.writeBlock_eq_some ..).1 ((nextOr_eq_next ..).1 h)
    simp
  | ldMemVx x =>
    obtain ⟨stored, hstored, rfl⟩ := Option.map_eq_some_iff.1 ((nextOr_eq_next ..).1 h)
    obtain ⟨-, rfl⟩ := (State.writeBlock_eq_some ..).1 hstored
    simp
  | ldVxMem x =>
    obtain ⟨bytes, -, rfl⟩ := Option.map_eq_some_iff.1 ((nextOr_eq_next ..).1 h)
    simp
  | _ => cases h; rfl

/-- Settles O12: each instruction that writes PC by its own lemma, the others by the fetch advance alone. -/
theorem programCounterMovement : Obligations.ProgramCounterMovement := by
  unfold Obligations.ProgramCounterMovement
  refine ⟨fun s t i hdecode h => ?_, fun s t w hdecode h => ?_, fun s f h => ?_⟩
  · rw [step_of_decode_instr hdecode] at h
    cases i with
    | seImm | sneImm | seReg | sneReg =>
      cases h
      rw [State.pc_skipIf_advancePc]
      simp
    | skp x =>
      cases h
      exact State.pc_skipIf_advancePc ..
    | sknp x =>
      cases h
      rw [State.pc_skipIf_advancePc]
      cases hkey : s.keyDown (s.reg x).toNat <;> simp [hkey]
    | jp nnn =>
      cases h
      exact jumpTarget_eq_ofNat nnn
    | call nnn => exact (pc_of_execCall_next h).trans (jumpTarget_eq_ofNat nnn)
    | ret => exact pc_of_execRet_next (s := s.advancePc) h
    | jpV0 nnn =>
      cases h
      exact offsetTarget_eq_ofNat ..
    | ldVxK x => simpa using pc_of_execLdVxK_next h
    | _ => exact pc_of_exec_next_of_not_writesPc rfl h
  · rw [step_of_decode_unknown hdecode] at h
    exact pc_of_execUnknown_next h
  · rw [after_of_step_fault h]
    exact apply_ite State.pc ..

end Sys2Proof.Machine

/-! SUPPORT. Which operations write memory (20_memory.md R59): two instructions, and no host operation other than a step. -/

namespace Sys2Proof.Machine

/-! ## The step, from the state it completes in (R93) -/

/-- R93: a step that completes fetched a word and executed what it decodes to. -/
theorem execDecoded_of_step_next {s t : State} (h : step s = .next t) :
    ∃ d, (fetchWord s).map decodeWord = some d ∧ execDecoded d s.advancePc = .next t := by
  cases hw : fetchWord s with
  | none =>
    simp only [step, hw] at h
    exact absurd h (raise_ne_next _ _ _)
  | some w =>
    simp only [step, hw] at h
    exact ⟨decodeWord w, rfl, h⟩

/-- R94: an unknown word that completes does nothing beyond the fetch advance. -/
theorem eq_of_execUnknown_next {s t : State} (h : execUnknown s = .next t) : t = s := by
  unfold execUnknown at h
  split at h
  · cases h; rfl
  · exact absurd h (raise_ne_next _ _ _)

/-! ## The instructions that write memory, and those that leave it alone -/

/-- R59: the instructions that write memory, Fx33 and Fx55. -/
def writesMem : Instr → Bool
  | .ldBVx _ | .ldMemVx _ => true
  | _ => false

theorem writesMem_iff (i : Instr) : writesMem i = true ↔ (∃ x, i = .ldBVx x) ∨ ∃ x, i = .ldMemVx x := by
  cases i <;> simp [writesMem]

@[simp] theorem State.drawSprite_mem (s : State) (x y : Nibble) (rows : List Byte) : (s.drawSprite x y rows).mem = s.mem := rfl

theorem mem_of_execRet_next {s t : State} (h : execRet s = .next t) : t.mem = s.mem := by
  obtain ⟨popped, hpop, rfl⟩ := Option.map_eq_some_iff.1 ((nextOr_eq_next ..).1 h)
  obtain ⟨-, rfl⟩ := (State.pop_eq_some ..).1 hpop
  rfl

theorem mem_of_execCall_next {nnn : Addr} {s t : State} (h : execCall nnn s = .next t) : t.mem = s.mem := by
  obtain ⟨pushed, hpush, rfl⟩ := Option.map_eq_some_iff.1 ((nextOr_eq_next ..).1 h)
  obtain ⟨-, rfl⟩ := (State.push_eq_some ..).1 hpush
  rfl

theorem mem_of_execDrw_next {x y n : Nibble} {s t : State} (h : execDrw x y n s = .next t) : t.mem = s.mem := by
  obtain ⟨rows, -, rfl⟩ := Option.map_eq_some_iff.1 ((nextOr_eq_next ..).1 h)
  exact State.drawSprite_mem ..

theorem mem_of_execLdVxMem_next {x : Nibble} {s t : State} (h : execLdVxMem x s = .next t) : t.mem = s.mem := by
  obtain ⟨bytes, -, rfl⟩ := Option.map_eq_some_iff.1 ((nextOr_eq_next ..).1 h)
  rw [State.stepIndex_mem, State.setRegs_mem]

theorem mem_of_execLdVxK_next {x : Nibble} {s t : State} (h : execLdVxK x s = .next t) : t.mem = s.mem := by
  unfold execLdVxK at h
  split at h <;> (cases h; rfl)

theorem mem_of_exec_next_of_not_writesMem {i : Instr} {s t : State} (hi : writesMem i = false) (h : exec i s = .next t) :
    t.mem = s.mem := by
  cases i with
  | ldBVx | ldMemVx => cases hi
  | ret => exact mem_of_execRet_next h
  | call nnn => exact mem_of_execCall_next h
  | drw x y n => exact mem_of_execDrw_next h
  | ldVxMem x => exact mem_of_execLdVxMem_next h
  | ldVxK x => exact mem_of_execLdVxK_next h
  | seImm | sneImm | seReg | sneReg | skp | sknp =>
    cases h
    exact State.skipIf_mem ..
  | _ => cases h; rfl

/-- R59: a step that changes memory fetched one of the two instructions that write it. -/
theorem decode_of_step_next_of_mem_ne {s t : State} (h : step s = .next t) (hmem : t.mem ≠ s.mem) :
    ∃ i, (fetchWord s).map decodeWord = some (.instr i) ∧ writesMem i = true := by
  obtain ⟨d, hdecode, hexec⟩ := execDecoded_of_step_next h
  cases d with
  | instr i =>
    refine ⟨i, hdecode, ?_⟩
    by_contra hi
    exact hmem (mem_of_exec_next_of_not_writesMem (s := s.advancePc) (Bool.eq_false_of_not_eq_true hi) hexec)
  | unknown w =>
    obtain rfl := eq_of_execUnknown_next hexec
    exact absurd rfl hmem

/-! ## The host operations (R187) -/

@[simp] theorem setKey_mem (s : State) (k : Nat) (down : Bool) : (setKey s k down).mem = s.mem := by
  unfold setKey
  split <;> rfl

theorem mem_serve_of_ne_step (s : State) {op : PortOp} (hop : op ≠ .step) : (serve s op).2.mem = s.mem := by
  cases op with
  | step => exact absurd rfl hop
  | keyDown k | keyUp k => exact setKey_mem ..
  | tickTimers | readFramebuffer | readSound => rfl

/-- Settles O18: an instruction that is not one of the two leaves memory alone, and the other host operations write only
timers and keys. -/
theorem onlyTwoInstructionsWriteMemory : Obligations.OnlyTwoInstructionsWriteMemory := by
  unfold Obligations.OnlyTwoInstructionsWriteMemory
  refine ⟨fun i s t h => ?_, fun s t h hmem => ?_, fun s op hop => mem_serve_of_ne_step s hop⟩
  · cases hi : writesMem i with
    | true => exact .inr ((writesMem_iff i).1 hi)
    | false => exact .inl (mem_of_exec_next_of_not_writesMem hi h)
  · obtain ⟨i, hdecode, hi⟩ := decode_of_step_next_of_mem_ne h hmem
    obtain ⟨x, rfl⟩ | ⟨x, rfl⟩ := (writesMem_iff i).1 hi
    · exact ⟨x, .inl hdecode⟩
    · exact ⟨x, .inr hdecode⟩

end Sys2Proof.Machine

/-! SUPPORT. Decoding and encoding agree (30_encoding.md R71–R77): what each group of the decoder reads from a word, and how
the rows of the opcode map fix the fields the decoder looks at. -/

namespace Sys2Proof

/-! ## The word of an instruction decodes to it -/

theorem decodeWord_encode (i : Instr) : decodeWord (encode i) = .instr i := by
  cases i with
  | cls | ret => rfl
  | jp | call | ldI | jpV0 => simp [encode, decodeWord]
  | seImm | sneImm | ldImm | addImm | rnd => simp [encode, decodeWord]
  | seReg | sneReg | drw => simp [encode, decodeWord]
  | ldReg | or | and | xor | addReg | sub | subn | shr | shl => simp [encode, decodeWord, decodeGroup8]
  | skp | sknp => simp [encode, decodeWord, decodeGroupE]
  | ldVxDt | ldVxK | ldDtVx | ldStVx | addIVx | ldFVx | ldBVx | ldMemVx | ldVxMem =>
    simp [encode, decodeWord, decodeGroupF]

theorem decodeBytes_encodeBytes_append (i : Instr) (rest : List Byte) :
    decodeBytes (encodeBytes i ++ rest) = .word (.instr i) rest := by
  rw [← decodeWord_encode i, ← wordOfBytes_bytes (encode i)]
  simp [encodeBytes, decodeBytes]

/-- Settles O1: format by format, from the fields of a word built by each. -/
theorem decodeOfEncode : Obligations.DecodeOfEncode := by
  unfold Obligations.DecodeOfEncode
  exact fun i => ⟨decodeWord_encode i, decodeBytes_encodeBytes_append i⟩

/-! ## What the decoder reads from a word -/

/-- R77: the unknown space, by first nibble, in the numbers the decoder looks at. -/
def UnknownWord (w : Word) : Prop :=
  ((opField w).toNat = 0x0 ∧ (nnnField w).toNat ≠ 0x0E0 ∧ (nnnField w).toNat ≠ 0x0EE) ∨
  (((opField w).toNat = 0x5 ∨ (opField w).toNat = 0x9) ∧ (nField w).toNat ≠ 0x0) ∨
  ((opField w).toNat = 0x8 ∧ 0x8 ≤ (nField w).toNat ∧ (nField w).toNat ≠ 0xE) ∨
  ((opField w).toNat = 0xE ∧ (nnField w).toNat ∉ [0x9E, 0xA1]) ∨
  ((opField w).toNat = 0xF ∧ (nnField w).toNat ∉ [0x07, 0x0A, 0x15, 0x18, 0x1E, 0x29, 0x33, 0x55, 0x65])

/-- A sound reading of a word: an instruction whose word it is, or `Unknown` of a word in the unknown space. -/
inductive ReadingOf (w : Word) : Decoded → Prop where
  | instr {i : Instr} (encodes : encode i = w) (known : ¬ UnknownWord w) : ReadingOf w (.instr i)
  | unknown (isUnknown : UnknownWord w) : ReadingOf w (.unknown w)

section
variable {w : Word}

theorem formatA_of_op {o : Nibble} (ho : (opField w).toNat = o.toNat) : formatA o (nnnField w) = w := by
  rw [← BitVec.eq_of_toNat_eq ho, formatA_fields]

theorem formatA_of_op_nnn {o : Nibble} {nnn : Addr} (ho : (opField w).toNat = o.toNat)
    (hnnn : (nnnField w).toNat = nnn.toNat) : formatA o nnn = w := by
  rw [← BitVec.eq_of_toNat_eq hnnn, formatA_of_op ho]

theorem formatXK_of_op {o : Nibble} (ho : (opField w).toNat = o.toNat) : formatXK o (xField w) (nnField w) = w := by
  rw [← BitVec.eq_of_toNat_eq ho, formatXK_fields]

theorem formatXK_of_op_nn {o : Nibble} {nn : Byte} (ho : (opField w).toNat = o.toNat)
    (hnn : (nnField w).toNat = nn.toNat) : formatXK o (xField w) nn = w := by
  rw [← BitVec.eq_of_toNat_eq hnn, formatXK_of_op ho]

theorem formatXY_of_op {o : Nibble} (ho : (opField w).toNat = o.toNat) :
    formatXY o (xField w) (yField w) (nField w) = w := by
  rw [← BitVec.eq_of_toNat_eq ho, formatXY_fields]

theorem formatXY_of_op_n {o n : Nibble} (ho : (opField w).toNat = o.toNat) (hn : (nField w).toNat = n.toNat) :
    formatXY o (xField w) (yField w) n = w := by
  rw [← BitVec.eq_of_toNat_eq hn, formatXY_of_op ho]

/-- R77: the first nibbles under which every word is an instruction. -/
theorem not_unknownWord_of_op (h : (opField w).toNat ∉ [0x0, 0x5, 0x8, 0x9, 0xE, 0xF]) : ¬ UnknownWord w := by
  simp only [List.mem_cons, List.not_mem_nil, not_or] at h
  simp [UnknownWord, h]

theorem decodeGroup0_reading (ho : (opField w).toNat = 0x0) : ReadingOf w (decodeGroup0 w) := by
  unfold decodeGroup0
  split
  next h => exact .instr (formatA_of_op_nnn ho h) (by simp [UnknownWord, ho, h])
  next h => exact .instr (formatA_of_op_nnn ho h) (by simp [UnknownWord, ho, h])
  next h₁ h₂ => exact .unknown (.inl ⟨ho, h₁, h₂⟩)

theorem decodeGroup8_reading (ho : (opField w).toNat = 0x8) : ReadingOf w (decodeGroup8 w) := by
  unfold decodeGroup8
  have hlt := (nField w).isLt
  split
  case h_10 =>
    simp only [imp_false] at *
    exact .unknown (.inr (.inr (.inl ⟨ho, by omega, by omega⟩)))
  all_goals
    rename_i h
    exact .instr (formatXY_of_op_n ho h) (by simp [UnknownWord, ho, h])

theorem decodeGroupE_reading (ho : (opField w).toNat = 0xE) : ReadingOf w (decodeGroupE w) := by
  unfold decodeGroupE
  split
  next h => exact .instr (formatXK_of_op_nn ho h) (by simp [UnknownWord, ho, h])
  next h => exact .instr (formatXK_of_op_nn ho h) (by simp [UnknownWord, ho, h])
  next h₁ h₂ => exact .unknown (by simpa [UnknownWord, ho] using ⟨h₁, h₂⟩)

theorem decodeGroupF_reading (ho : (opField w).toNat = 0xF) : ReadingOf w (decodeGroupF w) := by
  unfold decodeGroupF
  split
  case h_10 =>
    simp only [imp_false] at *
    exact .unknown (by simp [UnknownWord, *])
  all_goals
    rename_i h
    exact .instr (formatXK_of_op_nn ho h) (by simp [UnknownWord, ho, h])

/-- R74: the decoder reads every word soundly. -/
theorem decodeWord_reading (w : Word) : ReadingOf w (decodeWord w) := by
  unfold decodeWord
  split
  case h_1 ho => exact decodeGroup0_reading ho
  case h_9 ho => exact decodeGroup8_reading ho
  case h_15 ho => exact decodeGroupE_reading ho
  case h_16 =>
    have hlt := (opField w).isLt
    simp only [imp_false] at *
    exact decodeGroupF_reading (by omega)
  case h_6 ho | h_10 ho =>
    split
    next hn => exact .instr (formatXY_of_op_n ho (congrArg BitVec.toNat hn)) (by simp [UnknownWord, ho, hn])
    next hn => exact .unknown (by simpa [UnknownWord, ho, ← BitVec.toNat_inj] using hn)
  case h_2 ho | h_3 ho | h_11 ho | h_12 ho => exact .instr (formatA_of_op ho) (not_unknownWord_of_op (by simp [ho]))
  case h_14 ho => exact .instr (formatXY_of_op ho) (not_unknownWord_of_op (by simp [ho]))
  all_goals
    rename_i ho
    exact .instr (formatXK_of_op ho) (not_unknownWord_of_op (by simp [ho]))

theorem encode_of_decodeWord {i : Instr} (h : decodeWord w = .instr i) : encode i = w := by
  have hr := decodeWord_reading w
  rw [h] at hr
  cases hr with
  | instr encodes _ => exact encodes

theorem eq_of_decodeWord_unknown {u : Word} (h : decodeWord w = .unknown u) : u = w := by
  have hr := decodeWord_reading w
  rw [h] at hr
  cases hr with
  | unknown _ => rfl

theorem decodeWord_eq_unknown_iff : decodeWord w = .unknown w ↔ UnknownWord w := by
  have hr := decodeWord_reading w
  generalize decodeWord w = d at hr ⊢
  cases hr with
  | instr _ known => simp [known]
  | unknown isUnknown => simp [isUnknown]

end

/-- Settles O2: the decoder reads every word soundly, and an instruction's word decodes to it. -/
theorem encodeOfDecode : Obligations.EncodeOfDecode := by
  unfold Obligations.EncodeOfDecode
  refine fun w => ⟨fun i h => encode_of_decodeWord h, fun u h => ⟨eq_of_decodeWord_unknown h, ?_⟩⟩
  rintro i rfl
  cases (decodeWord_encode i).symm.trans h

/-- R77: the low nibbles the 8 group leaves out. -/
theorem nField_mem_unknown8_iff (w : Word) : nField w ∈ ([0x8, 0x9, 0xA, 0xB, 0xC, 0xD, 0xF] : List Nibble) ↔
    0x8 ≤ (nField w).toNat ∧ (nField w).toNat ≠ 0xE := by
  generalize nField w = n
  revert n
  decide

/-- Settles O4: the decoder's own reading of the unknown space, with fields in place of their numbers. -/
theorem unknownSpace : Obligations.UnknownSpace := by
  unfold Obligations.UnknownSpace
  intro w
  rw [decodeWord_eq_unknown_iff, nField_mem_unknown8_iff]
  simp only [UnknownWord, List.mem_cons, List.not_mem_nil, ne_eq, ← BitVec.toNat_inj]
  rfl

/-- Settles O5: the decoder runs on each word. -/
theorem sampleWordsDecode : Obligations.SampleWordsDecode := by
  unfold Obligations.SampleWordsDecode
  decide

/-! ## The rows of the opcode map (R75, R76) -/

/-- Every row fixes the first nibble, and after it the fields by which words of that first nibble are told apart. -/
theorem opcodeMap_masks : ∀ r ∈ opcodeMap, opField r.mask = 0xF ∧
    ((opField r.bits).toNat = 0x0 → nnnField r.mask = 0xFFF) ∧
    ((opField r.bits).toNat ∈ [0x5, 0x8, 0x9] → nField r.mask = 0xF) ∧
    ((opField r.bits).toNat ∈ [0xE, 0xF] → nnField r.mask = 0xFF) := by decide

theorem decodeWord_bits_ne_unknown : ∀ r ∈ opcodeMap, decodeWord r.bits ≠ .unknown r.bits := by decide

/-- R75: two rows differ in a bit that both fix. -/
theorem opcodeMap_disjoint : ∀ r ∈ opcodeMap, ∀ r' ∈ opcodeMap, r.bits &&& r'.mask = r'.bits &&& r.mask → r = r' := by
  decide

/-- A mask that keeps a whole field pins that field of every word it matches. -/
theorem extractLsb'_eq_of_and_eq {w m b : Word} {start len : Nat} (hm : m.extractLsb' start len = BitVec.allOnes len)
    (h : w &&& m = b) : w.extractLsb' start len = b.extractLsb' start len := by
  rw [← h, BitVec.extractLsb'_and, hm, BitVec.and_allOnes]

theorem unknownWord_bits_of_match {r : OpcodeRow} {w : Word} (hr : r ∈ opcodeMap) (h : w &&& r.mask = r.bits)
    (hw : UnknownWord w) : UnknownWord r.bits := by
  obtain ⟨hop, hnnn, hn, hnn⟩ := opcodeMap_masks r hr
  have op_eq : opField w = opField r.bits := extractLsb'_eq_of_and_eq hop h
  have nnn_eq (h0 : (opField r.bits).toNat = 0x0) : nnnField w = nnnField r.bits := extractLsb'_eq_of_and_eq (hnnn h0) h
  have n_eq (h0 : (opField r.bits).toNat ∈ [0x5, 0x8, 0x9]) : nField w = nField r.bits :=
    extractLsb'_eq_of_and_eq (hn h0) h
  have nn_eq (h0 : (opField r.bits).toNat ∈ [0xE, 0xF]) : nnField w = nnField r.bits :=
    extractLsb'_eq_of_and_eq (hnn h0) h
  unfold UnknownWord at hw ⊢
  rw [op_eq] at hw
  obtain ⟨ho, h0⟩ | ⟨ho, h59⟩ | ⟨ho, h8⟩ | ⟨ho, hE⟩ | ⟨ho, hF⟩ := hw
  · exact .inl ⟨ho, nnn_eq ho ▸ h0⟩
  · exact .inr (.inl ⟨ho, n_eq (by simp; omega) ▸ h59⟩)
  · exact .inr (.inr (.inl ⟨ho, n_eq (by simp [ho]) ▸ h8⟩))
  · exact .inr (.inr (.inr (.inl ⟨ho, nn_eq (by simp [ho]) ▸ hE⟩)))
  · exact .inr (.inr (.inr (.inr ⟨ho, nn_eq (by simp [ho]) ▸ hF⟩)))

/-- R75: a word that a row matches is no unknown word. -/
theorem not_unknownWord_of_match {r : OpcodeRow} {w : Word} (hr : r ∈ opcodeMap) (h : w &&& r.mask = r.bits) :
    ¬ UnknownWord w := fun hw =>
  decodeWord_bits_ne_unknown r hr (decodeWord_eq_unknown_iff.2 (unknownWord_bits_of_match hr h hw))

theorem opcodeMap_unique {r r' : OpcodeRow} {w : Word} (hr : r ∈ opcodeMap) (hr' : r' ∈ opcodeMap)
    (h : w &&& r.mask = r.bits) (h' : w &&& r'.mask = r'.bits) : r = r' :=
  opcodeMap_disjoint r hr r' hr' (by rw [← h, ← h', BitVec.and_assoc, BitVec.and_assoc, BitVec.and_comm r.mask])

/-- R76: every instruction has a row of the opcode map, which bears its tag and matches its word. -/
theorem encodingRow (i : Instr) : Laws.EncodingRow.Statement i := by
  cases i with
  | cls => exact Laws.EncodingRow.cls
  | ret => exact Laws.EncodingRow.ret
  | jp nnn => exact Laws.EncodingRow.jp nnn
  | call nnn => exact Laws.EncodingRow.call nnn
  | seImm x nn => exact Laws.EncodingRow.seImm x nn
  | sneImm x nn => exact Laws.EncodingRow.sneImm x nn
  | seReg x y => exact Laws.EncodingRow.seReg x y
  | sneReg x y => exact Laws.EncodingRow.sneReg x y
  | ldImm x nn => exact Laws.EncodingRow.ldImm x nn
  | addImm x nn => exact Laws.EncodingRow.addImm x nn
  | ldReg x y => exact Laws.EncodingRow.ldReg x y
  | or x y => exact Laws.EncodingRow.or x y
  | and x y => exact Laws.EncodingRow.and x y
  | xor x y => exact Laws.EncodingRow.xor x y
  | addReg x y => exact Laws.EncodingRow.addReg x y
  | sub x y => exact Laws.EncodingRow.sub x y
  | subn x y => exact Laws.EncodingRow.subn x y
  | shr x y => exact Laws.EncodingRow.shr x y
  | shl x y => exact Laws.EncodingRow.shl x y
  | ldI nnn => exact Laws.EncodingRow.ldI nnn
  | jpV0 nnn => exact Laws.EncodingRow.jpV0 nnn
  | rnd x nn => exact Laws.EncodingRow.rnd x nn
  | drw x y n => exact Laws.EncodingRow.drw x y n
  | skp x => exact Laws.EncodingRow.skp x
  | sknp x => exact Laws.EncodingRow.sknp x
  | ldVxDt x => exact Laws.EncodingRow.ldVxDt x
  | ldVxK x => exact Laws.EncodingRow.ldVxK x
  | ldDtVx x => exact Laws.EncodingRow.ldDtVx x
  | ldStVx x => exact Laws.EncodingRow.ldStVx x
  | addIVx x => exact Laws.EncodingRow.addIVx x
  | ldFVx x => exact Laws.EncodingRow.ldFVx x
  | ldBVx x => exact Laws.EncodingRow.ldBVx x
  | ldMemVx x => exact Laws.EncodingRow.ldMemVx x
  | ldVxMem x => exact Laws.EncodingRow.ldVxMem x

theorem exists_row_of_decodeWord {w : Word} {i : Instr} (h : decodeWord w = .instr i) :
    ∃ r ∈ opcodeMap, r.tag = tagOf i ∧ w &&& r.mask = r.bits := by
  obtain ⟨r, hr, htag, hmatch⟩ := encodingRow i
  exact ⟨r, hr, htag, by simpa [rowMatches, encode_of_decodeWord h] using hmatch⟩

/-- R74: a word that a row matches decodes to that row's instruction. -/
theorem decodeWord_of_match {r : OpcodeRow} {w : Word} (hr : r ∈ opcodeMap) (h : w &&& r.mask = r.bits) :
    ∃ i, decodeWord w = .instr i ∧ tagOf i = r.tag := by
  cases hd : decodeWord w with
  | instr i =>
    obtain ⟨r', hr', htag, h'⟩ := exists_row_of_decodeWord hd
    obtain rfl := opcodeMap_unique hr hr' h h'
    exact ⟨i, rfl, htag.symm⟩
  | unknown u =>
    obtain rfl := eq_of_decodeWord_unknown hd
    exact absurd (decodeWord_eq_unknown_iff.1 hd) (not_unknownWord_of_match hr h)

theorem decodeWord_of_no_match {w : Word} (h : ∀ r ∈ opcodeMap, w &&& r.mask ≠ r.bits) : decodeWord w = .unknown w := by
  cases hd : decodeWord w with
  | instr i =>
    obtain ⟨r, hr, -, hmatch⟩ := exists_row_of_decodeWord hd
    exact absurd hmatch (h r hr)
  | unknown u => rw [eq_of_decodeWord_unknown hd]

/-- Settles O3: each instruction's word matches the row with its tag, no two rows match one word, and a row matches no
unknown word. -/
theorem decodeFollowsOpcodeMap : Obligations.DecodeFollowsOpcodeMap := by
  unfold Obligations.DecodeFollowsOpcodeMap
  exact fun w => ⟨fun r hr r' hr' h h' => opcodeMap_unique hr hr' h h', fun r hr h => decodeWord_of_match hr h,
    decodeWord_of_no_match⟩

end Sys2Proof

/-! SUPPORT. The written forms (30_encoding.md R79): which operands each mnemonic takes. -/

namespace Sys2Proof

/-! ## An instruction from its form -/

theorem instrOfAsm_asmOf (i : Instr) : instrOfAsm (asmOf i) = some i := by
  cases i <;> rfl

theorem asmOf_injective : Function.Injective asmOf := fun i j h =>
  Option.some.inj (by rw [← instrOfAsm_asmOf i, h, instrOfAsm_asmOf])

/-! ## The operands that stand for an instruction -/

section
variable {ops : List AsmOperand} {i : Instr}

theorem operands_of_noOperands {j : Instr} (h : noOperands j ops = some i) : ops = [] ∧ i = j := by
  unfold noOperands at h
  split at h
  · cases h
    exact ⟨rfl, rfl⟩
  · cases h

theorem operands_of_oneRegister {make : Nibble → Instr} (h : oneRegister make ops = some i) :
    ∃ x, ops = [.v x] ∧ i = make x := by
  unfold oneRegister at h
  split at h
  · cases h
    exact ⟨_, rfl, rfl⟩
  · cases h

theorem operands_of_twoRegisters {make : Nibble → Nibble → Instr} (h : twoRegisters make ops = some i) :
    ∃ x y, ops = [.v x, .v y] ∧ i = make x y := by
  unfold twoRegisters at h
  split at h
  · cases h
    exact ⟨_, _, rfl, rfl⟩
  · cases h

theorem operands_of_registerWith {imm : Nibble → Byte → Option Instr} {reg : Nibble → Nibble → Option Instr}
    (h : registerWith imm reg ops = some i) :
    (∃ x nn, ops = [.v x, .nn nn] ∧ imm x nn = some i) ∨ ∃ x y, ops = [.v x, .v y] ∧ reg x y = some i := by
  unfold registerWith at h
  split at h
  · exact .inl ⟨_, _, rfl, h⟩
  · exact .inr ⟨_, _, rfl, h⟩
  · cases h

theorem asmOf_of_jumpOperands (h : jumpOperands ops = some i) : asmOf i = ⟨.jp, ops⟩ := by
  unfold jumpOperands at h
  split at h
  · cases h
    rfl
  · split at h
    · next hx =>
      cases h
      rw [hx]
      rfl
    · cases h
  · cases h

theorem asmOf_of_callOperands (h : callOperands ops = some i) : asmOf i = ⟨.call, ops⟩ := by
  unfold callOperands at h
  split at h
  · cases h
    rfl
  · cases h

theorem asmOf_of_addOperands (h : addOperands ops = some i) : asmOf i = ⟨.add, ops⟩ := by
  unfold addOperands at h
  split at h
  · cases h
    rfl
  · obtain ⟨x, nn, rfl, hi⟩ | ⟨x, y, rfl, hi⟩ := operands_of_registerWith h
    all_goals
      cases hi
      rfl

theorem asmOf_of_drawOperands (h : drawOperands ops = some i) : asmOf i = ⟨.drw, ops⟩ := by
  unfold drawOperands at h
  split at h
  · cases h
    rfl
  · cases h

theorem asmOf_of_loadRegister {x : Nibble} {source : AsmOperand} (h : loadRegister x source = some i) :
    asmOf i = ⟨.ld, [.v x, source]⟩ := by
  cases source with
  | v | nn | delay | key | atIndex =>
    cases h
    rfl
  | _ => cases h

theorem asmOf_of_loadFrom {x : Nibble} {destination : AsmOperand} (h : loadFrom x destination = some i) :
    asmOf i = ⟨.ld, [destination, .v x]⟩ := by
  cases destination with
  | delay | sound | glyph | bcd | atIndex =>
    cases h
    rfl
  | _ => cases h

theorem asmOf_of_loadOperands (h : loadOperands ops = some i) : asmOf i = ⟨.ld, ops⟩ := by
  unfold loadOperands at h
  split at h
  · exact asmOf_of_loadRegister h
  · exact asmOf_of_loadFrom h
  · cases h
    rfl
  · cases h

end

theorem asmOf_of_instrOfAsm {f : AsmForm} {i : Instr} (h : instrOfAsm f = some i) : asmOf i = f := by
  obtain ⟨mnemonic, ops⟩ := f
  cases mnemonic with
  | cls | ret =>
    obtain ⟨rfl, rfl⟩ := operands_of_noOperands h
    rfl
  | skp | sknp =>
    obtain ⟨x, rfl, rfl⟩ := operands_of_oneRegister h
    rfl
  | or | and | xor | sub | subn | shr | shl =>
    obtain ⟨x, y, rfl, rfl⟩ := operands_of_twoRegisters h
    rfl
  | se | sne =>
    obtain ⟨x, nn, rfl, hi⟩ | ⟨x, y, rfl, hi⟩ := operands_of_registerWith h
    all_goals
      cases hi
      rfl
  | rnd =>
    obtain ⟨x, nn, rfl, hi⟩ | ⟨x, y, -, hi⟩ := operands_of_registerWith h
    · cases hi
      rfl
    · cases hi
  | jp => exact asmOf_of_jumpOperands h
  | call => exact asmOf_of_callOperands h
  | ld => exact asmOf_of_loadOperands h
  | add => exact asmOf_of_addOperands h
  | drw => exact asmOf_of_drawOperands h

/-! ## The operand `Vy` of the shifts -/

theorem encode_shr_right_injective (x : Nibble) : Function.Injective fun y => encode (.shr x y) := fun y y' h => by
  simpa [encode] using congrArg yField h

theorem encode_shl_right_injective (x : Nibble) : Function.Injective fun y => encode (.shl x y) := fun y y' h => by
  simpa [encode] using congrArg yField h

/-- Settles O58: a form is read back operand by operand, and the two shifts drop `y`. -/
theorem assemblyForms : Obligations.AssemblyForms := by
  unfold Obligations.AssemblyForms
  refine ⟨fun i j => ⟨instrOfAsm_asmOf i, fun h => asmOf_injective h⟩, fun f i h => (asmOf_of_instrOfAsm h).symm, ?_⟩
  exact fun x y y' => ⟨fun h => encode_shr_right_injective x h, fun h => encode_shl_right_injective x h, fun s => ⟨rfl, rfl⟩⟩

end Sys2Proof

/-! SUPPORT. What a step runs, answers and may touch (40_cycle.md R90–R98): the fetch, the outcome of an unknown word, that
nothing is refused, and one frame per instruction. -/

namespace Sys2Proof.Machine

/-! ## The fetch and the advance (R53, R91, R92) -/

/-- R53: the byte at the lower address is the word's high byte. -/
theorem toNat_wordOfBytes (high low : Byte) : (wordOfBytes high low).toNat = high.toNat * 256 + low.toNat := by
  rw [wordOfBytes, BitVec.toNat_append, ← Nat.shiftLeft_add_eq_or_of_lt low.isLt, Nat.shiftLeft_eq]

/-- R92: after a fetch that succeeds, the advance does not wrap. -/
theorem toNat_pc_add_two {s : State} (hpc : s.pc.toNat + 1 ≤ 0xFFF) : (s.pc + 2).toNat = s.pc.toNat + 2 := by
  bv_omega

theorem fetchWord_of_le {s : State} (hpc : s.pc.toNat + 1 ≤ 0xFFF) :
    fetchWord s = some (wordOfBytes (s.byteAt s.pc.toNat) (s.byteAt (s.pc.toNat + 1))) :=
  (fetchWord_eq_some ..).2 ⟨hpc, rfl⟩

/-- R91: a fetch past the end of memory faults and changes nothing. -/
theorem step_of_fetch_fault {s : State} (hpc : s.pc.toNat + 1 > 0xFFF) : step s = .fault (.outOfBoundsAddress s) := by
  have hfetch : fetchWord s = none := (fetchWord_eq_none s).2 (by omega)
  simp only [step, hfetch, raise]

/-- Settles O6: the word at PC is fetched, and what it decodes to runs after the advance. -/
theorem stepRunsDecodedInstruction : Obligations.StepRunsDecodedInstruction := by
  unfold Obligations.StepRunsDecodedInstruction
  intro s i hpc hdecode
  have hfetch : (fetchWord s).map decodeWord = some (.instr i) := by
    rw [fetchWord_of_le hpc, Option.map_some, hdecode]
  exact ⟨step_of_decode_instr hfetch, toNat_pc_add_two hpc⟩

/-- Settles O7: the two bytes at PC, or the fault of the fetch. -/
theorem fetchReadsOrFaults : Obligations.FetchReadsOrFaults := by
  unfold Obligations.FetchReadsOrFaults
  refine fun s => ⟨fun hpc => ⟨_, fetchWord_of_le hpc, toNat_wordOfBytes .., ?_⟩, step_of_fetch_fault⟩
  rw [toNat_pc_add_two hpc]
  omega

/-! ## An unknown word (R94) -/

theorem execUnknown_of_noOp {s : State} (h : s.policies.unknownOpcode = .noOp) : execUnknown s = .next s := by
  simp only [execUnknown, h]

theorem execUnknown_of_fatal {s : State} (h : s.policies.unknownOpcode = .fatal) :
    execUnknown s = .fault (.unknownOpcode s) := by
  simp only [execUnknown, h, raise]

/-- Settles O8: the policy is consulted in the state after the fetch advance. -/
theorem unknownWordFollowsPolicy : Obligations.UnknownWordFollowsPolicy := by
  unfold Obligations.UnknownWordFollowsPolicy
  refine ⟨rfl, fun s w u hfetch hdecode => ?_⟩
  have hstep : step s = execUnknown s.advancePc := step_of_decode_unknown (by rw [hfetch, Option.map_some, hdecode])
  rw [hstep]
  exact ⟨fun h => execUnknown_of_noOp (s := s.advancePc) h, fun h => execUnknown_of_fatal (s := s.advancePc) h⟩

/-! ## What a step answers (R90, R95, R97) -/

theorem serve_step_of_fault {s : State} {f : Fault} (h : step s = .fault f) : serve s .step = (.err f.kind, f.after) := by
  simp only [serve, hostStep, h]

/-- Settles O9: the fault carries the state it was raised from, and the host goes on from the state it carries. -/
theorem faultsArePrecise : Obligations.FaultsArePrecise := by
  unfold Obligations.FaultsArePrecise
  exact fun s f h => ⟨after_of_step_fault h, serve_step_of_fault h⟩

theorem exec_ne_refused (i : Instr) (s : State) (r : Refusal) : exec i s ≠ .refused r := by
  cases i with
  | ret | call | drw | ldBVx | ldMemVx | ldVxMem => exact nextOr_ne_refused _ _ _ _
  | ldVxK x =>
    simp only [exec, execLdVxK]
    split <;> exact nofun
  | _ => exact nofun

theorem execUnknown_ne_refused (s : State) (r : Refusal) : execUnknown s ≠ .refused r := by
  unfold execUnknown
  split
  · exact nofun
  · exact raise_ne_refused _ _ _

theorem execDecoded_ne_refused (d : Decoded) (s : State) (r : Refusal) : execDecoded d s ≠ .refused r := by
  cases d with
  | instr i => exact exec_ne_refused i s r
  | unknown w => exact execUnknown_ne_refused s r

theorem step_ne_refused (s : State) (r : Refusal) : step s ≠ .refused r := by
  unfold step
  split
  · exact raise_ne_refused _ _ _
  · exact execDecoded_ne_refused _ _ _

/-- Settles O11: an arm of `exec` answers a state, or a fault where an operation it needs answers nothing. -/
theorem nothingIsRefused : Obligations.NothingIsRefused := by
  unfold Obligations.NothingIsRefused
  exact ⟨exec_ne_refused, step_ne_refused⟩

/-! ## The frame of each update of the state -/

theorem Frame.refl (f : Footprint) (s : State) : Frame f s s where
  regs _ _ := rfl
  index _ := rfl
  mem _ _ := rfl
  stack _ := ⟨rfl, rfl⟩
  delay _ := rfl
  sound _ := rfl
  screen _ := rfl
  keys := rfl
  policies := rfl
  draws _ := rfl

section
variable {f : Footprint} {s t u : State}

theorem Frame.trans (h : Frame f s t) (h' : Frame f t u) : Frame f s u where
  regs z hz := (h'.regs z hz).trans (h.regs z hz)
  index hi := (h'.index hi).trans (h.index hi)
  mem a ha := (h'.mem a ha).trans (h.mem a ha)
  stack hs := ⟨(h'.stack hs).1.trans (h.stack hs).1, (h'.stack hs).2.trans (h.stack hs).2⟩
  delay hd := (h'.delay hd).trans (h.delay hd)
  sound hs := (h'.sound hs).trans (h.sound hs)
  screen hs := (h'.screen hs).trans (h.screen hs)
  keys := h'.keys.trans h.keys
  policies := h'.policies.trans h.policies
  draws hd := (h'.draws hd).trans (h.draws hd)

theorem Frame.setPc (h : Frame f s t) (w : Word) : Frame f s (t.setPc w) :=
  h.trans { Frame.refl f t with }

theorem Frame.skipIf (h : Frame f s t) (skip : Bool) : Frame f s (t.skipIf skip) := by
  cases skip with
  | false => exact h
  | true => exact h.setPc _

theorem Frame.setReg (h : Frame f s t) {x : Nibble} (hx : f.regs x) (b : Byte) : Frame f s (t.setReg x b) :=
  h.trans { Frame.refl f t with
    regs := fun z hz => by rw [State.reg_setReg, if_neg (fun e : z = x => hz (e ▸ hx))] }

theorem Frame.setFlag (h : Frame f s t) (hVF : f.regs 0xF) (flag : Bool) : Frame f s (t.setFlag flag) :=
  h.setReg hVF _

theorem Frame.setRegs (h : Frame f s t) {k : Nat} {l : List Byte} (hl : ∀ j < l.length, f.regs (BitVec.ofNat 4 (k + j))) :
    Frame f s (t.setRegs k l) := by
  induction l generalizing t k with
  | nil => exact h
  | cons b l ih =>
    refine ih (h.setReg (hl 0 (by simp)) b) fun j hj => ?_
    rw [Nat.add_assoc, Nat.add_comm 1]
    exact hl (j + 1) (by simpa using hj)

theorem Frame.setIndex (h : Frame f s t) (hi : f.index) (a : Addr) : Frame f s (t.setIndex a) :=
  h.trans { Frame.refl f t with index := fun hn => absurd hi hn }

theorem Frame.stepIndex (h : Frame f s t) (hi : f.index) (x : Nibble) : Frame f s (t.stepIndex x) := by
  unfold State.stepIndex
  split
  · exact h.setIndex hi _
  · exact h

theorem Frame.setMem (h : Frame f s t) {m : Memory} (hm : ∀ a, ¬ f.mem a → m.read a = t.byteAt a) :
    Frame f s (t.setMem m) :=
  h.trans { Frame.refl f t with mem := hm }

theorem Frame.setStack (h : Frame f s t) (hs : f.stack) (slots : Vector Word 16) (depth : Fin 17) :
    Frame f s (t.setStack slots depth) :=
  h.trans { Frame.refl f t with stack := fun hn => absurd hs hn }

theorem Frame.setDelay (h : Frame f s t) (hd : f.delay) (b : Byte) : Frame f s (t.setDelay b) :=
  h.trans { Frame.refl f t with delay := fun hn => absurd hd hn }

theorem Frame.setSound (h : Frame f s t) (hs : f.sound) (b : Byte) : Frame f s (t.setSound b) :=
  h.trans { Frame.refl f t with sound := fun hn => absurd hs hn }

theorem Frame.setScreen (h : Frame f s t) (hs : f.screen) (fb : Screen) : Frame f s (t.setScreen fb) :=
  h.trans { Frame.refl f t with screen := fun hn => absurd hs hn }

theorem Frame.countDraw (h : Frame f s t) (hd : f.draws) : Frame f s t.countDraw :=
  h.trans { Frame.refl f t with draws := fun hn => absurd hd hn }

end

/-! ## What each instruction may touch (R98) -/

/-- R98: the components an instruction may change, apart from PC. Of the two stores it says only that they write memory,
not where. -/
def footprint : Instr → Footprint
  | .cls => { screen := True }
  | .ret | .call _ => { stack := True }
  | .jp _ | .jpV0 _ | .seImm _ _ | .sneImm _ _ | .seReg _ _ | .sneReg _ _ | .skp _ | .sknp _ => {}
  | .ldImm x _ | .addImm x _ | .ldReg x _ | .or x _ | .and x _ | .xor x _ | .ldVxDt x | .ldVxK x => { regs := fun z => z = x }
  | .addReg x _ | .sub x _ | .subn x _ | .shr x _ | .shl x _ => { regs := fun z => z = x ∨ z = 0xF }
  | .ldI _ | .ldFVx _ => { index := True }
  | .addIVx _ => { regs := fun z => z = 0xF, index := True }
  | .rnd x _ => { regs := fun z => z = x, draws := True }
  | .drw _ _ _ => { regs := fun z => z = 0xF, screen := True }
  | .ldDtVx _ => { delay := True }
  | .ldStVx _ => { sound := True }
  | .ldBVx _ => { mem := fun _ => True }
  | .ldMemVx _ => { mem := fun _ => True, index := True }
  | .ldVxMem x => { regs := fun z => z.toNat ≤ x.toNat, index := True }

section
variable {s t : State}

theorem frame_of_execRet_next (h : execRet s = .next t) : Frame (footprint .ret) s t := by
  obtain ⟨popped, hpop, rfl⟩ := Option.map_eq_some_iff.1 ((nextOr_eq_next ..).1 h)
  obtain ⟨-, rfl⟩ := (State.pop_eq_some ..).1 hpop
  exact ((Frame.refl _ s).setStack trivial _ _).setPc _

theorem frame_of_execCall_next {nnn : Addr} (h : execCall nnn s = .next t) : Frame (footprint (.call nnn)) s t := by
  obtain ⟨pushed, hpush, rfl⟩ := Option.map_eq_some_iff.1 ((nextOr_eq_next ..).1 h)
  obtain ⟨-, rfl⟩ := (State.push_eq_some ..).1 hpush
  exact ((Frame.refl _ s).setStack trivial _ _).setPc _

theorem frame_of_execDrw_next {x y n : Nibble} (h : execDrw x y n s = .next t) : Frame (footprint (.drw x y n)) s t := by
  obtain ⟨rows, -, rfl⟩ := Option.map_eq_some_iff.1 ((nextOr_eq_next ..).1 h)
  exact ((Frame.refl _ s).setScreen trivial _).setFlag rfl _

theorem frame_of_execLdVxK_next {x : Nibble} (h : execLdVxK x s = .next t) : Frame (footprint (.ldVxK x)) s t := by
  unfold execLdVxK at h
  split at h
  · cases h
    exact (Frame.refl _ s).setReg rfl _
  · cases h
    exact (Frame.refl _ s).setPc _

theorem frame_of_execLdBVx_next {x : Nibble} (h : execLdBVx x s = .next t) : Frame (footprint (.ldBVx x)) s t := by
  obtain ⟨-, rfl⟩ := (State.writeBlock_eq_some ..).1 ((nextOr_eq_next ..).1 h)
  exact (Frame.refl _ s).setMem fun a ha => absurd trivial ha

theorem frame_of_execLdMemVx_next {x : Nibble} (h : execLdMemVx x s = .next t) : Frame (footprint (.ldMemVx x)) s t := by
  obtain ⟨stored, hstored, rfl⟩ := Option.map_eq_some_iff.1 ((nextOr_eq_next ..).1 h)
  obtain ⟨-, rfl⟩ := (State.writeBlock_eq_some ..).1 hstored
  exact ((Frame.refl _ s).setMem fun a ha => absurd trivial ha).stepIndex trivial x

theorem frame_of_execLdVxMem_next {x : Nibble} (h : execLdVxMem x s = .next t) : Frame (footprint (.ldVxMem x)) s t := by
  obtain ⟨bytes, hbytes, rfl⟩ := Option.map_eq_some_iff.1 ((nextOr_eq_next ..).1 h)
  obtain ⟨-, rfl⟩ := (State.readBlock_eq_some ..).1 hbytes
  refine ((Frame.refl _ s).setRegs fun j hj => ?_).stepIndex trivial x
  show (BitVec.ofNat 4 (0 + j)).toNat ≤ x.toNat
  have hmod : (0 + j) % 2 ^ 4 ≤ 0 + j := Nat.mod_le ..
  simp only [List.length_map, List.length_range] at hj
  rw [BitVec.toNat_ofNat]
  omega

/-- R98: an instruction that completes changes nothing outside its footprint. -/
theorem frame_of_exec_next {i : Instr} (h : exec i s = .next t) : Frame (footprint i) s t := by
  have hrefl : Frame (footprint i) s s := Frame.refl _ s
  cases i with
  | ret => exact frame_of_execRet_next h
  | call nnn => exact frame_of_execCall_next h
  | drw x y n => exact frame_of_execDrw_next h
  | ldVxK x => exact frame_of_execLdVxK_next h
  | ldBVx x => exact frame_of_execLdBVx_next h
  | ldMemVx x => exact frame_of_execLdMemVx_next h
  | ldVxMem x => exact frame_of_execLdVxMem_next h
  | jp | jpV0 =>
    cases h
    exact hrefl.setPc _
  | seImm | sneImm | seReg | sneReg | skp | sknp =>
    cases h
    exact hrefl.skipIf _
  | ldImm | addImm | ldReg | or | and | xor | ldVxDt =>
    cases h
    exact hrefl.setReg rfl _
  | addReg | sub | subn | shr | shl =>
    cases h
    exact (hrefl.setReg (Or.inl rfl) _).setFlag (Or.inr rfl) _
  | ldI | ldFVx =>
    cases h
    exact hrefl.setIndex trivial _
  | addIVx x =>
    cases h
    exact (hrefl.setIndex trivial _).setFlag rfl _
  | rnd x nn =>
    cases h
    exact (hrefl.setReg rfl _).countDraw trivial
  | cls =>
    cases h
    exact hrefl.setScreen trivial _
  | ldDtVx x =>
    cases h
    exact hrefl.setDelay trivial _
  | ldStVx x =>
    cases h
    exact hrefl.setSound trivial _

end

/-! ## VF (R22, R96) -/

/-- R96: a flag-producing instruction that completes writes VF last. -/
theorem exists_eq_setFlag_of_exec_next {i : Instr} {s t : State} (hi : producesFlag i = true) (h : exec i s = .next t) :
    ∃ (u : State) (flag : Bool), t = u.setFlag flag := by
  cases i with
  | addReg | sub | subn | shr | shl | addIVx =>
    cases h
    exact ⟨_, _, rfl⟩
  | drw x y n =>
    obtain ⟨rows, -, rfl⟩ := Option.map_eq_some_iff.1 ((nextOr_eq_next ..).1 h)
    exact ⟨_, _, rfl⟩
  | _ => cases hi

theorem State.reg_setFlag_VF_eq_zero_or_one (s : State) (flag : Bool) :
    (s.setFlag flag).reg 0xF = 0 ∨ (s.setFlag flag).reg 0xF = 1 := by
  cases flag with
  | false => exact .inl (State.reg_setFlag_VF s false)
  | true => exact .inr (State.reg_setFlag_VF s true)

/-- Settles O17: a flag is 0 or 1, and outside its footprint an instruction leaves VF alone. -/
theorem flagRegisterRules : Obligations.FlagRegisterRules := by
  unfold Obligations.FlagRegisterRules
  refine fun i s t h => ⟨fun hi => ?_, fun hi => ?_⟩
  · obtain ⟨u, flag, rfl⟩ := exists_eq_setFlag_of_exec_next hi h
    exact State.reg_setFlag_VF_eq_zero_or_one u flag
  · refine or_iff_not_imp_left.2 fun hne => ?_
    have hVF : (footprint i).regs 0xF := not_imp_comm.1 ((frame_of_exec_next h).regs 0xF) hne
    cases i with
    | addReg | sub | subn | shr | shl | drw | addIVx => cases hi
    | ldVxMem x =>
      have hle : 15 ≤ x.toNat := hVF
      show x = 0xF
      bv_omega
    | ldImm | addImm | ldReg | or | and | xor | rnd | ldVxDt | ldVxK => exact hVF.symm
    | _ => exact hVF

/-! ## The devices (R30, R31, R32, R98) -/

/-- What executing a decoded word may touch: an unknown word touches nothing (R94). -/
def decodedFootprint : Decoded → Footprint
  | .instr i => footprint i
  | .unknown _ => {}

/-- A step that completes changes nothing but PC outside the footprint of what it fetched. -/
theorem frame_of_step_next {s t : State} (h : step s = .next t) :
    ∃ d, (fetchWord s).map decodeWord = some d ∧ Frame (decodedFootprint d) s t := by
  obtain ⟨d, hdecode, hexec⟩ := execDecoded_of_step_next h
  have hadvance : Frame (decodedFootprint d) s s.advancePc := (Frame.refl _ s).setPc _
  refine ⟨d, hdecode, hadvance.trans ?_⟩
  cases d with
  | instr i => exact frame_of_exec_next hexec
  | unknown w =>
    obtain rfl := eq_of_execUnknown_next hexec
    exact Frame.refl _ _

theorem decodedFootprint_delay_iff (d : Decoded) : (decodedFootprint d).delay ↔ ∃ x, d = .instr (.ldDtVx x) := by
  cases d with
  | instr i => cases i <;> simp [decodedFootprint, footprint]
  | unknown w => simp [decodedFootprint]

theorem decodedFootprint_sound_iff (d : Decoded) : (decodedFootprint d).sound ↔ ∃ x, d = .instr (.ldStVx x) := by
  cases d with
  | instr i => cases i <;> simp [decodedFootprint, footprint]
  | unknown w => simp [decodedFootprint]

theorem decodedFootprint_screen_iff (d : Decoded) :
    (decodedFootprint d).screen ↔ d = .instr .cls ∨ ∃ x y n, d = .instr (.drw x y n) := by
  cases d with
  | instr i => cases i <;> simp [decodedFootprint, footprint]
  | unknown w => simp [decodedFootprint]

theorem decodedFootprint_draws_iff (d : Decoded) : (decodedFootprint d).draws ↔ ∃ x nn, d = .instr (.rnd x nn) := by
  cases d with
  | instr i => cases i <;> simp [decodedFootprint, footprint]
  | unknown w => simp [decodedFootprint]

/-- Settles O19: a device that moved is in the footprint of what the step fetched. -/
theorem devicesMoveOnlyByTheirInstructions : Obligations.DevicesMoveOnlyByTheirInstructions := by
  unfold Obligations.DevicesMoveOnlyByTheirInstructions
  intro s t h
  obtain ⟨d, hdecode, hframe⟩ := frame_of_step_next h
  simp only [hdecode, Option.some.injEq]
  exact ⟨hframe.keys, hframe.policies,
    fun hne => (decodedFootprint_delay_iff d).1 (not_imp_comm.1 hframe.delay hne),
    fun hne => (decodedFootprint_sound_iff d).1 (not_imp_comm.1 hframe.sound hne),
    fun hne => (decodedFootprint_screen_iff d).1 (not_imp_comm.1 hframe.screen hne),
    fun hne => (decodedFootprint_draws_iff d).1 (not_imp_comm.1 hframe.draws hne)⟩

end Sys2Proof.Machine

/-! SUPPORT. Control flow (41_control_flow.md R100–R108): where the jumps go, what CALL and RET do to the stack, and when a skip
skips. -/

namespace Sys2Proof.Machine

/-! ## Jumps (R102, R108) -/

theorem toNat_jumpTarget (nnn : Addr) : (jumpTarget nnn).toNat = nnn.toNat :=
  BitVec.toNat_setWidth_of_le (by decide)

/-- R108: neither the sum nor its reduction leaves the 16-bit container. -/
theorem toNat_offsetTarget (mask : BnnnMask) (nnn : Addr) (v0 : Byte) :
    (offsetTarget mask nnn v0).toNat =
      if mask = .mask12 then (nnn.toNat + v0.toNat) % 4096 else nnn.toNat + v0.toNat := by
  have hnnn : nnn.toNat < 4096 := nnn.isLt
  have hv0 : v0.toNat < 256 := v0.isLt
  rw [offsetTarget_eq_ofNat, BitVec.toNat_ofNat]
  apply Nat.mod_eq_of_lt
  split <;> omega

/-- Settles O23: the target is `nnn` zero-extended, and only PC is written. -/
theorem jumpReplacesPc : Obligations.JumpReplacesPc := by
  unfold Obligations.JumpReplacesPc
  exact fun nnn s =>
    ⟨decodeWord_encode (.jp nnn), s.setPc (jumpTarget nnn), rfl, toNat_jumpTarget nnn, (Frame.refl _ s).setPc _⟩

/-- Settles O24: the target under either policy, and only PC is written. -/
theorem jumpWithOffset : Obligations.JumpWithOffset := by
  unfold Obligations.JumpWithOffset
  refine fun nnn s => ⟨decodeWord_encode (.jpV0 nnn), s.setPc (offsetTarget s.policies.bnnnMask nnn (s.reg 0x0)), rfl,
    (Frame.refl _ s).setPc _, fun hmask => ?_, fun hmask => ?_⟩
  · rw [State.setPc_pc, toNat_offsetTarget, hmask, if_neg (by decide)]
  · rw [State.setPc_pc, toNat_offsetTarget, if_pos hmask]

/-- Settles O30: the jump puts back the PC that the fetch advanced. -/
theorem selfJumpRepeats : Obligations.SelfJumpRepeats := by
  unfold Obligations.SelfJumpRepeats
  rintro s ⟨nnn, hdecode, hpc⟩
  have htarget : jumpTarget nnn = s.pc := BitVec.eq_of_toNat_eq ((toNat_jumpTarget nnn).trans hpc.symm)
  calc step s = .next (s.advancePc.setPc (jumpTarget nnn)) := step_of_decode_instr hdecode
    _ = .next (s.advancePc.setPc s.pc) := by rw [htarget]
    _ = .next s := rfl

/-! ## CALL and RET (R101, R103) -/

/-- R103: a CALL below full depth, on PC and on every slot. -/
theorem exec_call_of_lt (nnn : Addr) {s : State} (hsp : s.sp.val < 16) :
    ∃ t, exec (.call nnn) s = .next t ∧ t.pc = jumpTarget nnn ∧ t.sp.val = s.sp.val + 1 ∧
      ∀ k, t.slot k = if k = s.sp.val then s.pc else s.slot k := by
  have hpush := (State.push_eq_some s _ s.pc).2 ⟨hsp, rfl⟩
  refine ⟨_, (nextOr_eq_next ..).2 (Option.map_eq_some_iff.2 ⟨_, hpush, rfl⟩), rfl, rfl, fun k => ?_⟩
  rw [State.setPc_slot, State.slot_push hpush]

/-- R103: a CALL at full depth. -/
theorem exec_call_of_full (nnn : Addr) {s : State} (hsp : s.sp.val = 16) :
    exec (.call nnn) s = .fault (.stackOverflow s) := by
  have hpush : s.push s.pc = none := (State.push_eq_none ..).2 hsp
  simp only [exec, execCall, hpush, Option.map_none, nextOr, raise]

/-- R101: a RET above depth 0, on PC and on every slot. -/
theorem exec_ret_of_pos {s : State} (hsp : 0 < s.sp.val) :
    ∃ t, exec .ret s = .next t ∧ t.pc = s.slot (s.sp.val - 1) ∧ t.sp.val = s.sp.val - 1 ∧ ∀ k, t.slot k = s.slot k := by
  have hpop := (State.pop_eq_some s _).2 ⟨hsp, rfl⟩
  exact ⟨_, (nextOr_eq_next ..).2 (Option.map_eq_some_iff.2 ⟨_, hpop, rfl⟩), rfl, rfl, fun k => rfl⟩

/-- R101: a RET at depth 0. -/
theorem exec_ret_of_empty {s : State} (hsp : s.sp.val = 0) : exec .ret s = .fault (.stackUnderflow s) := by
  have hpop : s.pop = none := (State.pop_eq_none s).2 hsp
  simp only [exec, execRet, hpop, Option.map_none, nextOr, raise]

/-- Settles O25: the two cases of a CALL, the slots below the one it pushes to among those it leaves. -/
theorem callPushesAndJumps : Obligations.CallPushesAndJumps := by
  unfold Obligations.CallPushesAndJumps
  refine fun nnn s => ⟨decodeWord_encode (.call nnn), fun hsp => ?_, exec_call_of_full nnn⟩
  obtain ⟨t, hexec, hpc, hdepth, hslot⟩ := exec_call_of_lt nnn hsp
  refine ⟨t, hexec, by rw [hpc, toNat_jumpTarget], hdepth, by rw [hslot, if_pos rfl], fun k hk => ?_,
    frame_of_exec_next hexec⟩
  rw [hslot, if_neg (Nat.ne_of_lt hk)]

/-- Settles O26: the two cases of a RET, which changes no slot. -/
theorem returnPops : Obligations.ReturnPops := by
  unfold Obligations.ReturnPops
  refine fun s => ⟨decodeWord_encode .ret, fun hsp => ?_, exec_ret_of_empty⟩
  obtain ⟨t, hexec, hpc, hdepth, hslot⟩ := exec_ret_of_pos hsp
  exact ⟨t, hexec, hpc, hdepth, fun k _ => hslot k, frame_of_exec_next hexec⟩

/-- Settles O27: the RET pops the slot that the CALL pushed to, and the frames compose. -/
theorem callThenReturn : Obligations.CallThenReturn := by
  unfold Obligations.CallThenReturn
  intro nnn q s hsp
  obtain ⟨t, hcall, -, htdepth, htslot⟩ := exec_call_of_lt nnn hsp
  have hpos : 0 < (t.setPc q).sp.val := by simp [htdepth]
  obtain ⟨u, hret, hupc, hudepth, huslot⟩ := exec_ret_of_pos hpos
  simp only [State.setPc_sp, State.setPc_slot, htdepth, htslot, Nat.add_sub_cancel, ↓reduceIte] at hupc hudepth huslot
  have hframe : Frame { stack := True } s (t.setPc q) := Frame.setPc (frame_of_exec_next hcall) q
  refine ⟨t, u, hcall, hret, hupc, Fin.ext hudepth, fun k hk => ?_, hframe.trans (frame_of_exec_next hret)⟩
  rw [huslot, if_neg (Nat.ne_of_lt hk)]

/-! ## Calls without a return, as the host sees them (R103, R187) -/

theorem serve_step_of_next {s t : State} (h : step s = .next t) : serve s .step = (.ok, t) := by
  simp only [serve, hostStep, h]

section
variable {s : State} {nnn : Addr} (hdecode : (fetchWord s).map decodeWord = some (.instr (.call nnn)))
include hdecode

theorem serve_step_of_call_of_lt (hsp : s.sp.val < 16) :
    ∃ t, serve s .step = (.ok, t) ∧ t.sp.val = s.sp.val + 1 := by
  obtain ⟨t, hexec, -, hdepth, -⟩ := exec_call_of_lt nnn (s := s.advancePc) hsp
  exact ⟨t, serve_step_of_next ((step_of_decode_instr hdecode).trans hexec), hdepth⟩

theorem serve_step_of_call_of_full (hsp : s.sp.val = 16) : serve s .step = (.err .stackOverflow, s.advancePc) :=
  serve_step_of_fault ((step_of_decode_instr hdecode).trans (exec_call_of_full nnn (s := s.advancePc) hsp))

end

/-- R28: from an empty stack, `k` calls bring the depth to `k`, as long as there is room. -/
theorem sp_of_successive_calls {f : Nat → State} (hzero : (f 0).sp.val = 0)
    (hstep : ∀ k, k < 16 → f (k + 1) = (serve (f k) .step).2)
    (hcall : ∀ k, k ≤ 16 → ∃ nnn, (fetchWord (f k)).map decodeWord = some (.instr (.call nnn))) :
    ∀ k, k ≤ 16 → (f k).sp.val = k := by
  intro k hk
  induction k with
  | zero => exact hzero
  | succ k ih =>
    have hdepth : (f k).sp.val = k := ih (Nat.le_of_lt hk)
    obtain ⟨nnn, hdecode⟩ := hcall k (Nat.le_of_lt hk)
    obtain ⟨t, hserve, ht⟩ := serve_step_of_call_of_lt hdecode (hdepth.trans_lt hk)
    rw [hstep k hk, hserve, ht, hdepth]

/-- Settles O28: the call at depth `k` answers Ok below 16 and overflows at 16. -/
theorem seventeenthCallOverflows : Obligations.SeventeenthCallOverflows := by
  unfold Obligations.SeventeenthCallOverflows
  intro f hzero hstep hcall
  have hdepth := sp_of_successive_calls hzero hstep hcall
  constructor
  · intro k hk
    obtain ⟨nnn, hdecode⟩ := hcall k (Nat.le_of_lt hk)
    obtain ⟨t, hserve, -⟩ := serve_step_of_call_of_lt hdecode ((hdepth k (Nat.le_of_lt hk)).trans_lt hk)
    rw [hserve]
  · obtain ⟨nnn, hdecode⟩ := hcall 16 (Nat.le_refl 16)
    rw [serve_step_of_call_of_full hdecode (hdepth 16 (Nat.le_refl 16))]

/-! ## Skips (R100) -/

/-- R100: an instruction that is a conditional skip moves PC by 2 when its condition holds, and changes nothing else. -/
theorem exec_of_skipIf {i : Instr} {s : State} {skip : Bool} {p q : Prop} (hexec : exec i s = .next (s.skipIf skip))
    (hskip : p → skip = true) (hstay : q → skip = false) :
    ∃ t, exec i s = .next t ∧ Frame {} s t ∧ (p → t.pc = s.pc + 2) ∧ (q → t.pc = s.pc) := by
  refine ⟨_, hexec, (Frame.refl _ s).skipIf skip, fun hp => ?_, fun hq => ?_⟩
  · rw [hskip hp, State.skipIf_pc, if_pos rfl]
  · rw [hstay hq, State.skipIf_pc, if_neg Bool.false_ne_true]

/-- Settles O29: each of the four is a conditional skip on its own comparison. -/
theorem registerSkips : Obligations.RegisterSkips := by
  unfold Obligations.RegisterSkips
  exact ⟨
    fun x nn s => ⟨decodeWord_encode (.seImm x nn), exec_of_skipIf rfl beq_iff_eq.2 beq_eq_false_iff_ne.2⟩,
    fun x nn s => ⟨decodeWord_encode (.sneImm x nn), exec_of_skipIf rfl bne_iff_ne.2 bne_eq_false_iff_eq.2⟩,
    fun x y s => ⟨decodeWord_encode (.seReg x y), exec_of_skipIf rfl beq_iff_eq.2 beq_eq_false_iff_ne.2⟩,
    fun x y s => ⟨decodeWord_encode (.sneReg x y), exec_of_skipIf rfl bne_iff_ne.2 bne_eq_false_iff_eq.2⟩⟩

end Sys2Proof.Machine

/-! SUPPORT. Register loads and the ALU (42_alu.md R120–R132): each result and each flag as a number, and what a register write
followed by a flag write leaves in the registers. -/

namespace Sys2Proof.Machine

/-! ## Results and flags, as numbers (R121, R126–R130) -/

theorem toNat_sumByte (a b : Byte) : (sumByte a b).toNat = (a.toNat + b.toNat) % 256 := BitVec.toNat_ofNat ..

/-- The remainder modulo 256 of a difference, negative or not, fits in a byte. -/
theorem toNat_diffByte (a b : Byte) : ((diffByte a b).toNat : Int) = ((a.toNat : Int) - (b.toNat : Int)) % 256 := by
  rw [diffByte, BitVec.toNat_ofInt]
  exact Int.toNat_of_nonneg (Int.emod_nonneg _ (by decide))

theorem toNat_shiftRight (a : Byte) : (shiftRight a).toNat = a.toNat / 2 := by
  rw [shiftRight, BitVec.toNat_ushiftRight, Nat.shiftRight_eq_div_pow, Nat.pow_one]

theorem toNat_shiftLeft (a : Byte) : (shiftLeft a).toNat = a.toNat * 2 % 256 := by
  rw [shiftLeft, BitVec.toNat_shiftLeft, Nat.shiftLeft_eq, Nat.pow_one]

theorem toNat_shiftedOutRight (a : Byte) : (shiftedOutRight a).toNat = a.toNat % 2 :=
  (Nat.toNat_testBit a.toNat 0).trans (by rw [Nat.pow_zero, Nat.div_one])

/-- Bit 7 of a byte is what is left above its low seven bits. -/
theorem toNat_shiftedOutLeft (a : Byte) : (shiftedOutLeft a).toNat = a.toNat / 128 := by
  have ha : a.toNat < 256 := a.isLt
  have hbit : (shiftedOutLeft a).toNat = a.toNat / 128 % 2 := Nat.toNat_testBit a.toNat 7
  omega

/-! ## A result, then a flag (R96) -/

section
variable (s : State)

theorem State.toNat_reg_setFlag_VF (flag : Bool) : ((s.setFlag flag).reg 0xF).toNat = flag.toNat := by
  cases flag <;> exact congrArg BitVec.toNat (State.reg_setFlag_VF s _)

theorem State.reg_setFlag_decide_VF (p : Prop) [Decidable p] : (s.setFlag (decide p)).reg 0xF = flagByte p := by
  refine (State.reg_setFlag_VF s _).trans ?_
  simp only [flagByte, decide_eq_true_eq]

/-- The flag write replaces the result only where VF is the destination. -/
theorem State.reg_setReg_setFlag_of_ne {x : Nibble} (hx : x ≠ 0xF) (b : Byte) (flag : Bool) :
    ((s.setReg x b).setFlag flag).reg x = b :=
  (State.reg_setFlag ..).trans ((if_neg hx).trans (State.reg_setReg_self ..))

theorem frame_setReg (x : Nibble) (b : Byte) : Frame { regs := (· = x) } s (s.setReg x b) :=
  (Frame.refl _ s).setReg rfl b

theorem frame_setReg_setFlag (x : Nibble) (b : Byte) (flag : Bool) :
    Frame { regs := fun z => z = x ∨ z = 0xF } s ((s.setReg x b).setFlag flag) :=
  ((Frame.refl _ s).setReg (Or.inl rfl) b).setFlag (Or.inr rfl) flag

end

/-! ## Results without a flag (R120–R125) -/

/-- Settles O31: each writes its operand to V[x]. -/
theorem registerLoads : Obligations.RegisterLoads := by
  unfold Obligations.RegisterLoads
  exact ⟨
    fun x nn s => ⟨decodeWord_encode (.ldImm x nn), s.setReg x nn, rfl, rfl, State.reg_setReg_self .., frame_setReg ..⟩,
    fun x y s => ⟨decodeWord_encode (.ldReg x y), s.setReg x (s.reg y), rfl, rfl, State.reg_setReg_self .., frame_setReg ..⟩⟩

/-- Settles O32: the sum goes to V[x], and no flag is written. -/
theorem addImmediateWraps : Obligations.AddImmediateWraps := by
  unfold Obligations.AddImmediateWraps
  refine fun x nn s =>
    ⟨decodeWord_encode (.addImm x nn), s.setReg x (sumByte (s.reg x) nn), rfl, rfl, ?_, frame_setReg ..⟩
  rw [State.reg_setReg_self, toNat_sumByte]

/-- An instruction that only writes `b` to V[x], by the bits of `b`. -/
theorem exec_of_setReg_bits {i : Instr} {s : State} {x : Nibble} {b : Byte} {bit : Nat → Bool}
    (hexec : exec i s = .next (s.setReg x b)) (hbit : ∀ k, b.getLsbD k = bit k) :
    ∃ t, exec i s = .next t ∧ t.pc = s.pc ∧ Frame { regs := (· = x) } s t ∧ ∀ k, (t.reg x).getLsbD k = bit k :=
  ⟨_, hexec, rfl, frame_setReg .., fun k => by rw [State.reg_setReg_self, hbit]⟩

/-- Settles O33: the bits of each result, and no flag is written. -/
theorem bitwiseLogic : Obligations.BitwiseLogic := by
  unfold Obligations.BitwiseLogic
  exact ⟨
    fun x y s => ⟨decodeWord_encode (.or x y), exec_of_setReg_bits rfl fun _ => BitVec.getLsbD_or⟩,
    fun x y s => ⟨decodeWord_encode (.and x y), exec_of_setReg_bits rfl fun _ => BitVec.getLsbD_and⟩,
    fun x y s => ⟨decodeWord_encode (.xor x y), exec_of_setReg_bits rfl fun _ => BitVec.getLsbD_xor⟩⟩

/-! ## Carry and borrow (R126–R128) -/

/-- Settles O34: the carry is computed from the operands the instruction started with, and written after the sum. -/
theorem addRegisterCarry : Obligations.AddRegisterCarry := by
  unfold Obligations.AddRegisterCarry
  refine fun x y s => ⟨decodeWord_encode (.addReg x y), _, rfl, rfl, frame_setReg_setFlag .., fun hx => ?_,
    State.reg_setFlag_decide_VF ..⟩
  rw [State.reg_setReg_setFlag_of_ne _ hx, toNat_sumByte]

/-- R127, R128: an instruction that writes `a - b` to V[x] and then NOT borrow to VF. -/
theorem exec_of_diffByte {i : Instr} {s : State} {x : Nibble} {a b : Byte}
    (hexec : exec i s = .next ((s.setReg x (diffByte a b)).setFlag (notBorrow a b))) :
    ∃ t, exec i s = .next t ∧ t.pc = s.pc ∧ Frame { regs := fun z => z = x ∨ z = 0xF } s t ∧
      (x ≠ 0xF → ((t.reg x).toNat : Int) = ((a.toNat : Int) - (b.toNat : Int)) % 256) ∧
      t.reg 0xF = flagByte (¬ a.toNat < b.toNat) := by
  refine ⟨_, hexec, rfl, frame_setReg_setFlag .., fun hx => ?_, State.reg_setFlag_decide_VF ..⟩
  rw [State.reg_setReg_setFlag_of_ne _ hx, toNat_diffByte]

/-- Settles O35: SUB and SUBN are one subtraction, with the operands in either order. -/
theorem subtractNotBorrow : Obligations.SubtractNotBorrow := by
  unfold Obligations.SubtractNotBorrow
  exact ⟨
    fun x y s => ⟨decodeWord_encode (.sub x y), exec_of_diffByte rfl⟩,
    fun x y s => ⟨decodeWord_encode (.subn x y), exec_of_diffByte rfl⟩⟩

/-! ## Shifts (R129, R130) -/

/-- An instruction that writes `b` to V[x] and then `flag` to VF, by the numbers they are. -/
theorem exec_of_setReg_setFlag {i : Instr} {s : State} {x : Nibble} {b : Byte} {flag : Bool} {result out : Nat}
    (hexec : exec i s = .next ((s.setReg x b).setFlag flag)) (hresult : b.toNat = result) (hout : flag.toNat = out) :
    ∃ t, exec i s = .next t ∧ t.pc = s.pc ∧ Frame { regs := fun z => z = x ∨ z = 0xF } s t ∧
      (x ≠ 0xF → (t.reg x).toNat = result) ∧ (t.reg 0xF).toNat = out := by
  refine ⟨_, hexec, rfl, frame_setReg_setFlag .., fun hx => ?_, (State.toNat_reg_setFlag_VF ..).trans hout⟩
  rw [State.reg_setReg_setFlag_of_ne _ hx, hresult]

/-- Settles O36: neither shift reads V[y], and both flags come from V[x] before the shift. -/
theorem shiftsByOne : Obligations.ShiftsByOne := by
  unfold Obligations.ShiftsByOne
  exact ⟨
    fun x y s => ⟨decodeWord_encode (.shr x y),
      exec_of_setReg_setFlag rfl (toNat_shiftRight _) (toNat_shiftedOutRight _)⟩,
    fun x y s => ⟨decodeWord_encode (.shl x y),
      exec_of_setReg_setFlag rfl (toNat_shiftLeft _) (toNat_shiftedOutLeft _)⟩⟩

end Sys2Proof.Machine

/-! SUPPORT. The index register and the memory blocks (43_index_memory.md R140–R146): what a write of I leaves in it, what a
block transfer inside memory moves, and that one past the top of memory faults. -/

namespace Sys2Proof.Machine

/-! ## The index register (R141–R143) -/

/-- R143: the formula stays below 4096 for every byte, not only for the sixteen digits. -/
theorem toNat_glyphAddress (b : Byte) : (glyphAddress b).toNat = 0x50 + b.toNat * 5 := by
  have hb : b.toNat < 256 := b.isLt
  rw [glyphAddress, BitVec.toNat_ofNat]
  exact Nat.mod_eq_of_lt (by omega)

theorem toNat_indexSum (i : Addr) (b : Byte) : (indexSum i b).toNat = (i.toNat + b.toNat) % 4096 := BitVec.toNat_ofNat ..

/-- Settles O38: each writes I once, and nothing else. -/
theorem indexLoads : Obligations.IndexLoads := by
  unfold Obligations.IndexLoads
  exact ⟨
    fun nnn s => ⟨decodeWord_encode (.ldI nnn), _, rfl, rfl, rfl, frame_of_exec_next (i := .ldI nnn) rfl⟩,
    fun x s => ⟨decodeWord_encode (.ldFVx x), _, rfl, rfl, toNat_glyphAddress _, frame_of_exec_next (i := .ldFVx x) rfl⟩⟩

/-- Settles O39: the flag is computed from the I and the V[x] that the sum reads, and written last. -/
theorem addToIndex : Obligations.AddToIndex := by
  unfold Obligations.AddToIndex
  exact fun x s => ⟨decodeWord_encode (.addIVx x), _, rfl, rfl, frame_of_exec_next (i := .addIVx x) rfl,
    toNat_indexSum .., State.reg_setFlag_decide_VF ..⟩

/-! ## A block inside memory or past its top (R140) -/

theorem inMemory_eq_false_iff (a k : Nat) : inMemory a k = false ↔ 0 < k ∧ 4096 < a + k := by
  rw [Bool.eq_false_iff, Ne, inMemory_iff]
  omega

section
variable {s t : State} {a : Nat} {l : List Byte}

theorem State.exists_writeBlock (s : State) (h : a + l.length ≤ 4096) : ∃ t, s.writeBlock a l = some t :=
  ⟨_, (State.writeBlock_eq_some ..).2 ⟨(inMemory_iff ..).2 (Or.inr h), rfl⟩⟩

/-- R54: a block write moves nothing but memory. -/
theorem State.eq_setMem_of_writeBlock (h : s.writeBlock a l = some t) : t = s.setMem t.mem := by
  obtain ⟨-, rfl⟩ := (State.writeBlock_eq_some ..).1 h
  rfl

/-- R61: the byte written at offset `k` of the block. -/
theorem State.byteAt_add_of_writeBlock (h : s.writeBlock a l = some t) (hwf : s.mem.wf = true) {k : Nat}
    (hk : k < l.length) : t.byteAt (a + k) = l[k] := by
  rw [State.byteAt_writeBlock h hwf (List.ne_nil_of_length_pos (Nat.zero_lt_of_lt hk)),
    dif_pos ⟨Nat.le_add_right a k, by rwa [Nat.add_sub_cancel_left]⟩]
  simp only [Nat.add_sub_cancel_left]

/-- R61: the addresses outside the block are as before. -/
theorem frame_of_writeBlock {f : Footprint} (h : s.writeBlock a l = some t) (hwf : s.mem.wf = true) (hl : l ≠ [])
    (hf : ∀ a', a ≤ a' → a' < a + l.length → f.mem a') : Frame f s t := by
  rw [State.eq_setMem_of_writeBlock h]
  refine (Frame.refl f s).setMem fun a' ha' => ?_
  have hout : ¬ (a ≤ a' ∧ a' - a < l.length) := fun ⟨hlo, hhi⟩ => ha' (hf a' hlo (by omega))
  exact (State.byteAt_writeBlock h hwf hl a').trans (dif_neg hout)

end

/-! ## The digits of a byte (R144) -/

theorem exec_ldBVx_of_gt {x : Nibble} {s : State} (hi : s.i.toNat > 0xFFD) :
    exec (.ldBVx x) s = .fault (.outOfBoundsAddress s) := by
  have hwrite : s.writeBlock s.i.toNat (bcdDigits (s.reg x)) = none := by
    rw [State.writeBlock_eq_none, inMemory_eq_false_iff, length_bcdDigits]
    omega
  simp only [exec, execLdBVx, hwrite, nextOr, raise]

/-- Any number of at most a byte's value survives its narrowing to a byte. -/
theorem toNat_ofNat_of_le_byte {n : Nat} {b : Byte} (h : n ≤ b.toNat) : (BitVec.ofNat 8 n).toNat = n := by
  rw [BitVec.toNat_ofNat, Nat.mod_eq_of_lt (h.trans_lt b.isLt)]

/-- Settles O40: the three bytes of the block are the digits, each read back at its offset. -/
theorem storeDecimalDigits : Obligations.StoreDecimalDigits := by
  unfold Obligations.StoreDecimalDigits
  refine fun x s => ⟨decodeWord_encode (.ldBVx x), fun hwf hi => ?_, exec_ldBVx_of_gt⟩
  obtain ⟨t, hwrite⟩ := s.exists_writeBlock (a := s.i.toNat) (l := bcdDigits (s.reg x)) (by rw [length_bcdDigits]; omega)
  have hbyte {k : Nat} (hk : k < 3) : t.byteAt (s.i.toNat + k) = (bcdDigits (s.reg x))[k] :=
    State.byteAt_add_of_writeBlock hwrite hwf hk
  have hexec : exec (.ldBVx x) s = .next t := (nextOr_eq_next ..).2 hwrite
  refine ⟨t, hexec, pc_of_exec_next_of_not_writesPc rfl hexec, ?_, ?_, ?_,
    frame_of_writeBlock hwrite hwf (List.cons_ne_nil _ _) fun a hlo hhi => ⟨hlo, Nat.le_of_lt_succ hhi⟩⟩
  · rw [← Nat.add_zero s.i.toNat, hbyte (by decide)]
    exact toNat_ofNat_of_le_byte (Nat.div_le_self ..)
  · rw [hbyte (by decide)]
    exact toNat_ofNat_of_le_byte ((Nat.mod_le ..).trans (Nat.div_le_self ..))
  · rw [hbyte (by decide)]
    exact toNat_ofNat_of_le_byte (Nat.mod_le ..)

/-! ## The advance of I after a register block (R145, R146, D10) -/

theorem State.toNat_i_stepIndex {s : State} (x : Nibble) (h : s.policies.loadStoreAdvancesI = true) :
    (s.stepIndex x).i.toNat = (s.i.toNat + x.toNat + 1) % 4096 := by
  rw [State.stepIndex_i, if_pos h, BitVec.toNat_ofNat]

/-- D10: I need be in the footprint only under the policy that advances it. -/
theorem Frame.stepIndex_of_policy {f : Footprint} {s t : State} (h : Frame f s t)
    (hi : s.policies.loadStoreAdvancesI = true → f.index) (x : Nibble) : Frame f s (t.stepIndex x) := by
  by_cases hadvance : t.policies.loadStoreAdvancesI = true
  · exact h.stepIndex (hi (h.policies ▸ hadvance)) x
  · rwa [State.stepIndex, if_neg hadvance]

/-! ## Storing the register block (R145) -/

theorem State.getElem_regBlock {s : State} {x z : Nibble} (hz : z.toNat < (s.regBlock x).length) :
    (s.regBlock x)[z.toNat] = s.reg z := by
  simp [State.regBlock]

theorem exec_ldMemVx_of_gt {x : Nibble} {s : State} (hi : s.i.toNat + x.toNat > 0xFFF) :
    exec (.ldMemVx x) s = .fault (.outOfBoundsAddress s) := by
  have hwrite : s.writeBlock s.i.toNat (s.regBlock x) = none := by
    rw [State.writeBlock_eq_none, inMemory_eq_false_iff, State.length_regBlock]
    omega
  simp only [exec, execLdMemVx, hwrite, Option.map_none, nextOr, raise]

/-- Settles O41: the block write puts V[z] at offset z, and the advance of I leaves memory alone. -/
theorem storeRegisterBlock : Obligations.StoreRegisterBlock := by
  unfold Obligations.StoreRegisterBlock
  refine fun x s => ⟨decodeWord_encode (.ldMemVx x), fun hwf hi => ?_, exec_ldMemVx_of_gt⟩
  obtain ⟨u, hwrite⟩ := s.exists_writeBlock (a := s.i.toNat) (l := s.regBlock x) (by rw [State.length_regBlock]; omega)
  have hu : u = s.setMem u.mem := State.eq_setMem_of_writeBlock hwrite
  have hne : s.regBlock x ≠ [] := List.ne_nil_of_length_pos (by rw [State.length_regBlock]; omega)
  have hframe : Frame { index := s.policies.loadStoreAdvancesI = true,
                        mem := fun a => s.i.toNat ≤ a ∧ a ≤ s.i.toNat + x.toNat } s u :=
    frame_of_writeBlock hwrite hwf hne fun a hlo hhi =>
      ⟨hlo, Nat.le_of_lt_succ (by rwa [State.length_regBlock] at hhi)⟩
  have hexec : exec (.ldMemVx x) s = .next (u.stepIndex x) :=
    (nextOr_eq_next ..).2 (Option.map_eq_some_iff.2 ⟨u, hwrite, rfl⟩)
  refine ⟨_, hexec, pc_of_exec_next_of_not_writesPc rfl hexec, fun z hz => ?_, fun hadvance => ?_,
    hframe.stepIndex_of_policy id x⟩
  · have hk : z.toNat < (s.regBlock x).length := by rw [State.length_regBlock]; omega
    rw [State.stepIndex_byteAt, State.byteAt_add_of_writeBlock hwrite hwf hk, State.getElem_regBlock hk]
  · rw [hu]
    exact State.toNat_i_stepIndex x hadvance

/-! ## Loading the register block (R146) -/

/-- The bytes that LD_VX_MEM reads: one for each of V[0], …, V[x]. -/
def State.memBlock (s : State) (x : Nibble) : List Byte :=
  (List.range (x.toNat + 1)).map fun k => s.byteAt (s.i.toNat + k)

@[simp] theorem State.length_memBlock (s : State) (x : Nibble) : (s.memBlock x).length = x.toNat + 1 := by
  simp [State.memBlock]

theorem exec_ldVxMem_of_le {x : Nibble} {s : State} (hi : s.i.toNat + x.toNat ≤ 0xFFF) :
    exec (.ldVxMem x) s = .next ((s.setRegs 0 (s.memBlock x)).stepIndex x) := by
  have hread : s.readBlock s.i.toNat (x.toNat + 1) = some (s.memBlock x) :=
    (State.readBlock_eq_some ..).2 ⟨(inMemory_iff ..).2 (by omega), rfl⟩
  simp only [exec, execLdVxMem, hread, Option.map_some, nextOr]

theorem exec_ldVxMem_of_gt {x : Nibble} {s : State} (hi : s.i.toNat + x.toNat > 0xFFF) :
    exec (.ldVxMem x) s = .fault (.outOfBoundsAddress s) := by
  have hread : s.readBlock s.i.toNat (x.toNat + 1) = none := by
    rw [State.readBlock_eq_none, inMemory_eq_false_iff]
    omega
  simp only [exec, execLdVxMem, hread, Option.map_none, nextOr, raise]

/-- R146: the registers after the load, those of the block and the others. -/
theorem State.reg_setRegs_memBlock (s : State) (x z : Nibble) :
    (s.setRegs 0 (s.memBlock x)).reg z = if z.toNat ≤ x.toNat then s.byteAt (s.i.toNat + z.toNat) else s.reg z := by
  have hx : x.toNat < 16 := x.isLt
  rw [State.reg_setRegs _ _ _ (by rw [State.length_memBlock]; omega)]
  simp [State.memBlock]

theorem frame_setRegs_memBlock {f : Footprint} (s : State) (x : Nibble) (hf : ∀ z : Nibble, z.toNat ≤ x.toNat → f.regs z) :
    Frame f s (s.setRegs 0 (s.memBlock x)) := by
  refine (Frame.refl f s).setRegs fun j hj => hf _ ?_
  have hmod : (0 + j) % 2 ^ 4 ≤ 0 + j := Nat.mod_le ..
  rw [State.length_memBlock] at hj
  rw [BitVec.toNat_ofNat]
  omega

/-- Settles O42: V[z] takes the byte at offset z of the block read, and the advance of I leaves the registers alone. -/
theorem loadRegisterBlock : Obligations.LoadRegisterBlock := by
  unfold Obligations.LoadRegisterBlock
  refine fun x s => ⟨decodeWord_encode (.ldVxMem x), fun hi => ?_, exec_ldVxMem_of_gt⟩
  have hexec := exec_ldVxMem_of_le hi
  refine ⟨_, hexec, pc_of_exec_next_of_not_writesPc rfl hexec, fun z hz => ?_, fun hadvance => ?_,
    (frame_setRegs_memBlock s x fun z hz => hz).stepIndex_of_policy id x⟩
  · rw [State.stepIndex_reg, State.reg_setRegs_memBlock, if_pos hz]
  · rw [State.toNat_i_stepIndex x (by rwa [State.setRegs_policies]), State.setRegs_i]

end Sys2Proof.Machine

/-! SUPPORT. The display (44_display.md R160–R165): the draw that an instruction makes, cell by cell and in VF, from the sprite
that its state holds in memory. -/

namespace Sys2Proof.Machine

/-! ## Clearing (R161) -/

theorem cellOf_blankScreen (c r : Nat) : cellOf blankScreen c r = false := by
  unfold cellOf
  split
  · split
    · simp [blankScreen]
    · rfl
  · rfl

/-- Settles O43: every cell of the screen it sets is off. -/
theorem clearScreen : Obligations.ClearScreen := by
  unfold Obligations.ClearScreen
  exact fun s => ⟨decodeWord_encode .cls, _, rfl, rfl, fun c r _ _ => cellOf_blankScreen c r,
    frame_of_exec_next (i := .cls) rfl⟩

/-! ## The sprite and where it starts (R160, R162, D11) -/

/-- The rows of the sprite: the `n` bytes from I on (R162). -/
def State.spriteRows (s : State) (n : Nibble) : List Byte :=
  (List.range n.toNat).map fun j => s.byteAt (s.i.toNat + j)

theorem startColumn_eq_drawColumn (s : State) (x : Nibble) :
    startColumn s.policies.drawStart (s.reg x) = drawColumn s x := by
  unfold startColumn drawColumn
  cases s.policies.drawStart <;> rfl

theorem startRow_eq_drawTop (s : State) (y : Nibble) : startRow s.policies.drawStart (s.reg y) = drawTop s y := by
  unfold startRow drawTop
  cases s.policies.drawStart <;> rfl

/-- The cells that the rows cover are those where the sprite has a 1. -/
theorem spriteCovers_spriteRows_iff (s : State) (x y n : Nibble) (c r : Nat) :
    spriteCovers (s.spriteRows n) (drawColumn s x) (drawTop s y) c r = true ↔ spriteOn s x y n c r := by
  have hrow (h : r - drawTop s y < n.toNat) :
      (s.spriteRows n).getD (r - drawTop s y) 0 = s.byteAt (s.i.toNat + (r - drawTop s y)) := by
    simp [State.spriteRows, h]
  have hlength : (s.spriteRows n).length = n.toNat := by simp [State.spriteRows]
  simp only [spriteCovers, spriteOn, spriteBit, hlength, Bool.and_eq_true, decide_eq_true_eq]
  constructor
  · rintro ⟨⟨htop, hbottom, hleft, hright⟩, hbit⟩
    exact ⟨htop, by omega, hleft, by omega, hrow hbottom ▸ hbit⟩
  · rintro ⟨htop, hbottom, hleft, hright, hbit⟩
    exact ⟨⟨htop, by omega, hleft, by omega⟩, (hrow (by omega)).symm ▸ hbit⟩

/-- The sprite of a draw lies where it lay, with the same bits, when the coordinates, I and memory are as before. -/
theorem Frame.spriteOn_iff {f : Footprint} {s t : State} {x y : Nibble} (h : Frame f s t) (hx : ¬ f.regs x)
    (hy : ¬ f.regs y) (hi : ¬ f.index) (hmem : ∀ a, ¬ f.mem a) (n : Nibble) (c r : Nat) :
    spriteOn t x y n c r ↔ spriteOn s x y n c r := by
  simp only [spriteOn, drawTop, drawColumn, h.regs x hx, h.regs y hy, h.index hi, h.mem _ (hmem _), h.policies]

/-! ## The state after a draw (R163–R165) -/

/-- The state after a DRW that does not fault. -/
def State.drawn (s : State) (x y n : Nibble) : State := s.drawSprite x y (s.spriteRows n)

section
variable (s : State) (x y n : Nibble)

theorem frame_drawn : Frame (footprint (.drw x y n)) s (s.drawn x y n) :=
  ((Frame.refl _ s).setScreen trivial _).setFlag rfl _

/-- R163, R164: the cells of the grid that a draw changes. -/
theorem State.cell_drawn_ne_iff {c r : Nat} (hc : c < 64) (hr : r < 32) :
    (s.drawn x y n).cell c r ≠ s.cell c r ↔ spriteOn s x y n c r := by
  have hcell : (s.drawn x y n).cell c r =
      (s.cell c r ^^ spriteCovers (s.spriteRows n) (drawColumn s x) (drawTop s y) c r) := by
    rw [State.drawn, State.drawSprite, State.setFlag_cell, State.setScreen_cell, cellOf_drawRows _ _ _ _ hc hr,
      startColumn_eq_drawColumn, startRow_eq_drawTop]
    rfl
  rw [hcell, ← spriteCovers_spriteRows_iff]
  cases spriteCovers (s.spriteRows n) (drawColumn s x) (drawTop s y) c r <;> simp

theorem State.reg_setFlag_VF_eq_one_iff (flag : Bool) : (s.setFlag flag).reg 0xF = 1 ↔ flag = true := by
  cases flag <;> simp [State.reg_setFlag_VF]

/-- R165: the collision flag, from the cells before the draw. -/
theorem State.reg_drawn_VF_eq_one_iff :
    (s.drawn x y n).reg 0xF = 1 ↔ ∃ c r, c < 64 ∧ r < 32 ∧ spriteOn s x y n c r ∧ s.cell c r = true := by
  rw [State.drawn, State.drawSprite, State.reg_setFlag_VF_eq_one_iff, hit_drawRows, startColumn_eq_drawColumn,
    startRow_eq_drawTop]
  simp only [spriteCovers_spriteRows_iff, Bool.false_eq_true, false_or, State.cell, and_comm]

/-- R165, from the cells before and after: the inverted cells that were on are those turned off. -/
theorem State.reg_drawn_VF_eq_one_iff_turned_off :
    (s.drawn x y n).reg 0xF = 1 ↔
      ∃ c r, c < 64 ∧ r < 32 ∧ s.cell c r = true ∧ (s.drawn x y n).cell c r = false := by
  rw [State.reg_drawn_VF_eq_one_iff]
  refine exists₂_congr fun c r => and_congr_right fun hc => and_congr_right fun hr => ?_
  rw [← s.cell_drawn_ne_iff x y n hc hr]
  cases s.cell c r <;> simp

/-- VF holds a flag, so it is 0 where it is not 1. -/
theorem State.reg_drawn_VF_eq_zero_of_ne_one (h : (s.drawn x y n).reg 0xF ≠ 1) : (s.drawn x y n).reg 0xF = 0 :=
  (State.reg_setFlag_VF_eq_zero_or_one ..).resolve_right h

end

/-! ## The instruction (R162, D13) -/

section
variable {x y n : Nibble} {s : State}

theorem exec_drw_of_le (h : n.toNat = 0 ∨ s.i.toNat + n.toNat - 1 ≤ 0xFFF) :
    exec (.drw x y n) s = .next (s.drawn x y n) := by
  have hread : s.readBlock s.i.toNat n.toNat = some (s.spriteRows n) :=
    (State.readBlock_eq_some ..).2 ⟨(inMemory_iff ..).2 (by omega), rfl⟩
  simp only [exec, execDrw, hread, Option.map_some, nextOr, State.drawn]

theorem exec_drw_of_gt (h : s.i.toNat + n.toNat - 1 > 0xFFF) :
    exec (.drw x y n) s = .fault (.outOfBoundsAddress s) := by
  have hread : s.readBlock s.i.toNat n.toNat = none := by
    rw [State.readBlock_eq_none, inMemory_eq_false_iff]
    omega
  simp only [exec, execDrw, hread, Option.map_none, nextOr, raise]

end

/-- Settles O44: a cell changes, and so is inverted, exactly where the sprite has a 1. -/
theorem drawTogglesCells : Obligations.DrawTogglesCells := by
  unfold Obligations.DrawTogglesCells
  refine fun x y n s => ⟨decodeWord_encode (.drw x y n), fun h => ?_, fun _ => exec_drw_of_gt⟩
  refine ⟨s.drawn x y n, exec_drw_of_le h, State.drawSprite_pc .., fun c r hc hr => ⟨fun hon => ?_, fun hoff => ?_⟩,
    (s.reg_drawn_VF_eq_one_iff x y n).2, fun hclear => ?_, frame_drawn s x y n⟩
  · exact Bool.eq_not.2 ((s.cell_drawn_ne_iff x y n hc hr).2 hon)
  · exact not_ne_iff.1 (mt (s.cell_drawn_ne_iff x y n hc hr).1 hoff)
  · refine s.reg_drawn_VF_eq_zero_of_ne_one x y n fun hVF => ?_
    obtain ⟨c, r, hc, hr, hon, hcell⟩ := (s.reg_drawn_VF_eq_one_iff x y n).1 hVF
    exact Bool.false_ne_true ((hclear c r hc hr hon).symm.trans hcell)

/-- Settles O45: VF is 1 when a cell was turned off, and otherwise 0. -/
theorem collisionFlag : Obligations.CollisionFlag := by
  unfold Obligations.CollisionFlag
  refine fun x y n s h => ⟨_, exec_drw_of_le h, (s.reg_drawn_VF_eq_one_iff_turned_off x y n).2, fun hkept => ?_⟩
  refine s.reg_drawn_VF_eq_zero_of_ne_one x y n fun hVF => ?_
  obtain ⟨c, r, hc, hr, hbefore, hafter⟩ := (s.reg_drawn_VF_eq_one_iff_turned_off x y n).1 hVF
  exact Bool.false_ne_true (hafter.symm.trans (hkept c r hc hr hbefore))

/-! ## A second draw of the same sprite (R163) -/

/-- A draw moves nothing its sprite is read from, unless a coordinate is in VF. -/
theorem spriteOn_drawn_iff {x y : Nibble} (hx : x ≠ 0xF) (hy : y ≠ 0xF) (s : State) (n : Nibble) (c r : Nat) :
    spriteOn (s.drawn x y n) x y n c r ↔ spriteOn s x y n c r :=
  (frame_drawn s x y n).spriteOn_iff hx hy id (fun _ => id) n c r

/-- Settles O46: the second draw changes exactly the cells that the first changed. -/
theorem drawTwiceRestoresScreen : Obligations.DrawTwiceRestoresScreen := by
  unfold Obligations.DrawTwiceRestoresScreen
  intro x y n s hx hy h
  have hfirst {c r : Nat} (hc : c < 64) (hr : r < 32) := s.cell_drawn_ne_iff x y n hc hr
  have hsecond {c r : Nat} (hc : c < 64) (hr : r < 32) :
      ((s.drawn x y n).drawn x y n).cell c r ≠ (s.drawn x y n).cell c r ↔ spriteOn s x y n c r :=
    ((s.drawn x y n).cell_drawn_ne_iff x y n hc hr).trans (spriteOn_drawn_iff hx hy s n c r)
  refine ⟨_, _, exec_drw_of_le h, exec_drw_of_le h, fun c r hc hr => ?_, ?_⟩
  · by_cases hon : spriteOn s x y n c r
    · rw [Bool.eq_not.2 ((hsecond hc hr).2 hon), Bool.eq_not.2 ((hfirst hc hr).2 hon), Bool.not_not]
    · exact (not_ne_iff.1 (mt (hsecond hc hr).1 hon)).trans (not_ne_iff.1 (mt (hfirst hc hr).1 hon))
  · rw [State.reg_drawn_VF_eq_one_iff]
    refine exists₂_congr fun c r => and_congr_right fun hc => and_congr_right fun hr => and_congr_left fun hcell => ?_
    rw [spriteOn_drawn_iff hx hy, ← hfirst hc hr, hcell, ne_comm]
    exact Bool.eq_false_iff.symm

end Sys2Proof.Machine

/-! SUPPORT. The timer and keypad instructions (45_timers_keypad.md R170–R176): which keys are down, as the flags say and after a
key event, and the two outcomes of the key wait. -/

namespace Sys2Proof.Machine

/-! ## The keys that are down (R170, R189, D14) -/

section
variable (s : State) {k : Nat}

theorem State.keyDown_of_lt (hk : k < 16) : s.keyDown k = s.keys[k] := dif_pos hk

/-- D14: a key that does not exist counts as up. -/
theorem State.keyDown_of_ge (hk : 16 ≤ k) : s.keyDown k = false := dif_neg (Nat.not_lt.2 hk)

theorem State.lt_of_keyDown {s : State} (h : s.keyDown k = true) : k < 16 := by
  by_contra hk
  rw [s.keyDown_of_ge (Nat.not_lt.1 hk)] at h
  cases h

/-- R189: a press of a key that exists sets its flag. -/
theorem pressKey_of_lt (hk : k < 16) : pressKey s k = s.setKeys (s.keys.set k true hk) := setKey_of_lt s hk true

/-- R189: after a press, the key is down and every other key is as before. -/
theorem State.keyDown_pressKey (hk : k < 16) (j : Nat) :
    (pressKey s k).keyDown j = if k = j then true else s.keyDown j := by
  rw [pressKey_of_lt s hk]
  by_cases hj : j < 16
  · rw [State.keyDown_of_lt _ hj, State.keyDown_of_lt _ hj]
    exact Vector.getElem_set hk hj
  · have hge : 16 ≤ j := Nat.not_lt.1 hj
    rw [State.keyDown_of_ge _ hge, State.keyDown_of_ge _ hge, if_neg (by omega)]

/-- R91: a key event does not reach the fetch. -/
theorem fetchWord_pressKey (hk : k < 16) : fetchWord (pressKey s k) = fetchWord s := by
  rw [pressKey_of_lt s hk]
  rfl

end

/-! ## Key skips (R171, R172) -/

/-- Settles O47: each is a conditional skip on the one key that V[x] names. -/
theorem keySkips : Obligations.KeySkips := by
  unfold Obligations.KeySkips
  constructor
  · refine fun x s => ⟨decodeWord_encode (.skp x), _, rfl,
      frame_of_exec_next (i := .skp x) rfl, fun hkey => ?_, fun hkey => ?_⟩
    · rw [State.skipIf_pc, s.keyDown_of_lt hkey]
    · rw [State.skipIf_pc, s.keyDown_of_ge hkey, if_neg Bool.false_ne_true]
  · refine fun x s => ⟨decodeWord_encode (.sknp x), _, rfl,
      frame_of_exec_next (i := .sknp x) rfl, fun hkey => ?_, fun hkey => ?_⟩
    · rw [State.skipIf_pc, s.keyDown_of_lt hkey]
      cases s.keys[(s.reg x).toNat] <;> rfl
    · rw [State.skipIf_pc, s.keyDown_of_ge hkey, Bool.not_false, if_pos rfl]

/-! ## Timers (R173, R175, R176) -/

/-- Settles O48: each is one write, of V[x], of DT or of ST. -/
theorem timerInstructions : Obligations.TimerInstructions := by
  unfold Obligations.TimerInstructions
  exact ⟨
    fun x s => ⟨decodeWord_encode (.ldVxDt x), s.setReg x s.dt, rfl, rfl, State.reg_setReg_self .., frame_setReg ..⟩,
    fun x s => ⟨decodeWord_encode (.ldDtVx x), _, rfl, rfl, rfl, frame_of_exec_next (i := .ldDtVx x) rfl⟩,
    fun x s => ⟨decodeWord_encode (.ldStVx x), _, rfl, rfl, rfl, frame_of_exec_next (i := .ldStVx x) rfl⟩⟩

/-! ## The key wait (R174) -/

section
variable {s : State} {k : Nat}

theorem State.lowestKey_eq_none_of_keys (hkeys : ∀ (k : Nat) (_ : k < 16), s.keys[k] = false) : s.lowestKey = none := by
  refine s.lowestKey_eq_none.2 fun k => ?_
  by_cases hk : k < 16
  · rw [s.keyDown_of_lt hk, hkeys k hk]
  · exact s.keyDown_of_ge (Nat.not_lt.1 hk)

/-- R174: with no key down, PC goes back by 2, and nothing else changes. -/
theorem exec_ldVxK_of_none (x : Nibble) (hkey : s.lowestKey = none) : exec (.ldVxK x) s = .next (s.setPc (s.pc - 2)) := by
  simp only [exec, execLdVxK, hkey]

/-- R174: with a key down, V[x] takes the index of the lowest, and nothing else changes. -/
theorem exec_ldVxK_of_some (x : Nibble) (hkey : s.lowestKey = some k) :
    ∃ t, exec (.ldVxK x) s = .next t ∧ t.pc = s.pc ∧ (t.reg x).toNat = k ∧ Frame { regs := (· = x) } s t := by
  have hk : k < 16 := State.lt_of_keyDown ((s.lowestKey_eq_some k).1 hkey).1
  have hexec : exec (.ldVxK x) s = .next (s.setReg x (BitVec.ofNat 8 k)) := by simp only [exec, execLdVxK, hkey]
  refine ⟨_, hexec, State.setReg_pc .., ?_, frame_of_exec_next hexec⟩
  rw [State.reg_setReg_self, BitVec.toNat_ofNat, Nat.mod_eq_of_lt (by omega)]

end

/-- Settles O49: the two outcomes, by the lowest key down. -/
theorem keyWait : Obligations.KeyWait := by
  unfold Obligations.KeyWait
  refine fun x s => ⟨decodeWord_encode (.ldVxK x), fun k hk hdown hup => ?_, fun hup => ?_⟩
  · refine exec_ldVxK_of_some x ((s.lowestKey_eq_some k).2 ⟨by rw [s.keyDown_of_lt hk, hdown], fun j hj => ?_⟩)
    rw [s.keyDown_of_lt (hj.trans hk), hup j hj]
  · exact ⟨_, exec_ldVxK_of_none x (State.lowestKey_eq_none_of_keys hup), State.setPc_pc .., (Frame.refl _ s).setPc _⟩

/-- R174, R193: a key pressed while none is down is the lowest one down. -/
theorem State.lowestKey_pressKey {s : State} {k : Nat} (hk : k < 16) (hnone : s.lowestKey = none) :
    (pressKey s k).lowestKey = some k := by
  refine (State.lowestKey_eq_some ..).2 ⟨by rw [s.keyDown_pressKey hk, if_pos rfl], fun j hj => ?_⟩
  rw [s.keyDown_pressKey hk, if_neg (Nat.ne_of_gt hj), s.lowestKey_eq_none.1 hnone]

/-- Settles O50: the rewind undoes the fetch advance, so the state is the same until a key is pressed, and that key is then the
lowest one down. -/
theorem blockedKeyWaitRepeats : Obligations.BlockedKeyWaitRepeats := by
  unfold Obligations.BlockedKeyWaitRepeats
  intro x s hdecode hup
  have hnone : s.lowestKey = none := State.lowestKey_eq_none_of_keys hup
  constructor
  · calc step s = exec (.ldVxK x) s.advancePc := step_of_decode_instr hdecode
      _ = .next (s.advancePc.setPc (s.pc + 2 - 2)) := exec_ldVxK_of_none x hnone
      _ = .next (s.advancePc.setPc s.pc) := by rw [BitVec.add_sub_cancel]
      _ = .next s := rfl
  · intro k hk
    have hfetch : (fetchWord (pressKey s k)).map decodeWord = some (.instr (.ldVxK x)) := by
      rw [fetchWord_pressKey s hk, hdecode]
    obtain ⟨t, hexec, hpc, hreg, -⟩ :=
      exec_ldVxK_of_some x (s := (pressKey s k).advancePc) (State.lowestKey_pressKey hk hnone)
    rw [State.advancePc_pc, pressKey_of_lt s hk, State.setKeys_pc] at hpc
    exact ⟨t, (step_of_decode_instr hfetch).trans hexec, hpc, hreg⟩

end Sys2Proof.Machine

/-! SUPPORT. Faults and the other ports (60_exceptions.md R180, R187–R190): when an instruction or an unknown word faults, and
what the timer tick and the two reads do. -/

namespace Sys2Proof.Machine

/-! ## Which fault, and when (R94, R180) -/

section
variable {s : State} {f g : Fault}

/-- R180: an instruction faults under the condition on which the one operation it needs answers nothing. -/
theorem nextOr_eq_fault_iff {kind : FaultKind} {o : Option State} {p : Prop} (hraise : raise kind s = .fault g)
    (hnone : o = none ↔ p) : nextOr kind s o = .fault f ↔ p ∧ f = g := by
  rw [← hnone]
  cases o with
  | none => simp only [nextOr, hraise, Host.Outcome.fault.injEq, true_and, eq_comm]
  | some t => exact iff_of_false nofun nofun

theorem execCall_eq_fault_iff (nnn : Addr) : execCall nnn s = .fault f ↔ s.sp.val = 16 ∧ f = .stackOverflow s :=
  nextOr_eq_fault_iff rfl (by rw [Option.map_eq_none_iff, State.push_eq_none])

theorem execRet_eq_fault_iff : execRet s = .fault f ↔ s.sp.val = 0 ∧ f = .stackUnderflow s :=
  nextOr_eq_fault_iff rfl (by rw [Option.map_eq_none_iff, State.pop_eq_none])

/-- R140, R162: a sprite of no rows reads nothing, so it never faults. -/
theorem execDrw_eq_fault_iff (x y n : Nibble) :
    execDrw x y n s = .fault f ↔ (1 ≤ n.toNat ∧ s.i.toNat + n.toNat - 1 > 0xFFF) ∧ f = .outOfBoundsAddress s := by
  refine nextOr_eq_fault_iff rfl ?_
  rw [Option.map_eq_none_iff, State.readBlock_eq_none, inMemory_eq_false_iff]
  omega

theorem execLdBVx_eq_fault_iff (x : Nibble) :
    execLdBVx x s = .fault f ↔ s.i.toNat > 0xFFD ∧ f = .outOfBoundsAddress s := by
  refine nextOr_eq_fault_iff rfl ?_
  rw [State.writeBlock_eq_none, inMemory_eq_false_iff, length_bcdDigits]
  omega

theorem execLdMemVx_eq_fault_iff (x : Nibble) :
    execLdMemVx x s = .fault f ↔ s.i.toNat + x.toNat > 0xFFF ∧ f = .outOfBoundsAddress s := by
  refine nextOr_eq_fault_iff rfl ?_
  rw [Option.map_eq_none_iff, State.writeBlock_eq_none, inMemory_eq_false_iff, State.length_regBlock]
  omega

theorem execLdVxMem_eq_fault_iff (x : Nibble) :
    execLdVxMem x s = .fault f ↔ s.i.toNat + x.toNat > 0xFFF ∧ f = .outOfBoundsAddress s := by
  refine nextOr_eq_fault_iff rfl ?_
  rw [Option.map_eq_none_iff, State.readBlock_eq_none, inMemory_eq_false_iff]
  omega

/-- R174: the key wait completes whether or not a key is down. -/
theorem execLdVxK_ne_fault (x : Nibble) : execLdVxK x s ≠ .fault f := by
  unfold execLdVxK
  split <;> exact nofun

/-- R94: an unknown word faults under `Fatal` and under no other policy. -/
theorem execUnknown_eq_fault_iff :
    execUnknown s = .fault f ↔ s.policies.unknownOpcode = .fatal ∧ f = .unknownOpcode s := by
  cases hpolicy : s.policies.unknownOpcode with
  | noOp =>
    rw [execUnknown_of_noOp hpolicy]
    exact iff_of_false nofun nofun
  | fatal => simp only [execUnknown_of_fatal hpolicy, Host.Outcome.fault.injEq, true_and, eq_comm]

end

/-- Settles O10: six instructions go through an operation that can answer nothing, and every other one completes. -/
theorem faultConditions : Obligations.FaultConditions := by
  unfold Obligations.FaultConditions
  refine ⟨fun i s f => ?_, fun s hpc => ⟨_, step_of_fetch_fault (Nat.lt_succ_of_le hpc), rfl⟩,
    fun s w u hfetch hdecode => ?_⟩
  · cases i with
    | call nnn => exact execCall_eq_fault_iff nnn
    | ret => exact execRet_eq_fault_iff
    | drw x y n => exact execDrw_eq_fault_iff x y n
    | ldBVx x => exact execLdBVx_eq_fault_iff x
    | ldMemVx x => exact execLdMemVx_eq_fault_iff x
    | ldVxMem x => exact execLdVxMem_eq_fault_iff x
    | ldVxK x => exact iff_of_false (execLdVxK_ne_fault x) id
    | _ => exact iff_of_false nofun id
  · have hstep : step s = execUnknown s.advancePc := step_of_decode_unknown (by rw [hfetch, Option.map_some, hdecode])
    simp only [hstep, execUnknown_eq_fault_iff]
    refine ⟨⟨fun ⟨_, hfatal, _⟩ => hfatal, fun hfatal => ⟨_, hfatal, rfl⟩⟩, ?_⟩
    rintro f ⟨-, rfl⟩
    rfl

/-! ## The timer tick and the two reads (R188, R190) -/

/-- Settles O51: each timer counts down on its own, and the two writes are the whole tick. -/
theorem tickTimers_lowers_timers : Obligations.TickTimers := by
  unfold Obligations.TickTimers
  exact fun s => ⟨rfl, toNat_countDown s.dt, toNat_countDown s.st, rfl,
    ((Frame.refl _ s).setDelay trivial _).setSound trivial _⟩

/-- Settles O53: the grid read is the framebuffer itself, so its cells are the state's. -/
theorem outputReads : Obligations.OutputReads := by
  unfold Obligations.OutputReads
  exact fun s => ⟨rfl, s.fb, rfl, fun c r _ _ => rfl⟩

end Sys2Proof.Machine

/-! SUPPORT. Construction and reset (70_reset_and_hazards.md R200–R203): what each address holds in a constructed core, that
every other component is as at reset, that no host operation changes the policies, and the first fetch. -/

namespace Sys2Proof.Machine

/-! ## The reset state (R202, D17) -/

@[simp] theorem State.reset_reg (z : Nibble) : State.reset.reg z = 0x00 := Vector.getElem_replicate ..

@[simp] theorem State.reset_slot (k : Nat) : State.reset.slot k = 0x0000 := by
  unfold State.slot
  split
  · exact Vector.getElem_replicate ..
  · rfl

@[simp] theorem State.reset_keyDown (k : Nat) : State.reset.keyDown k = false := by
  unfold State.keyDown
  split
  · exact Vector.getElem_replicate ..
  · rfl

@[simp] theorem State.reset_cell (c r : Nat) : State.reset.cell c r = false := cellOf_blankScreen c r

/-- Settles O13: no stack slot is live at reset. -/
theorem invariantAtReset : Obligations.InvariantAtReset where
  mem_wf := rfl
  pc_le := by decide
  slot_le := fun k hk => absurd hk (Nat.not_lt_zero k)

/-! ## What memory holds after construction (R201, D16) -/

section
variable (p : BuildParameters) (program : List Byte)

theorem byteAt_constructedState_program {k : Nat} (hk : 0x200 + k < 4096) :
    (constructedState p program).byteAt (0x200 + k) = program.getD k p.fill := by
  rw [byteAt_constructedState p program hk, constructedByte, if_pos (Nat.le_add_right ..), Nat.add_sub_cancel_left]

theorem byteAt_constructedState_font {k : Nat} (hk : k < 80) :
    (constructedState p program).byteAt (0x050 + k) = p.font[k] := by
  rw [byteAt_constructedState p program (by omega), constructedByte, if_neg (by omega), dif_pos (by omega)]
  simp only [Nat.add_sub_cancel_left]

theorem byteAt_constructedState_fill {a : Nat} (ha : a ≤ 0xFFF) (hfont : ¬ (0x050 ≤ a ∧ a ≤ 0x09F))
    (hprogram : ¬ (0x200 ≤ a ∧ a < 0x200 + program.length)) : (constructedState p program).byteAt a = p.fill := by
  rw [byteAt_constructedState p program (by omega), constructedByte]
  split
  · exact List.getD_eq_default _ _ (by omega)
  · exact dif_neg (by omega)

/-- R203: the first fetch reads the first two bytes of the program, or the fill behind its end. -/
theorem fetchWord_constructedState : fetchWord (constructedState p program) =
    some (wordOfBytes (program.getD 0 p.fill) (program.getD 1 p.fill)) := by
  have hpc : (constructedState p program).pc.toNat = 0x200 := rfl
  refine (fetchWord_eq_some ..).2 ⟨by omega, ?_⟩
  exact congrArg₂ wordOfBytes (byteAt_constructedState_program p program (k := 0) (by decide)).symm
    (byteAt_constructedState_program p program (k := 1) (by decide)).symm

end

/-! ## No operation changes the policies (D7) -/

theorem policies_of_step_next {s t : State} (h : step s = .next t) : t.policies = s.policies := by
  obtain ⟨_, _, hframe⟩ := frame_of_step_next h
  exact hframe.policies

theorem policies_of_step_fault {s : State} {f : Fault} (h : step s = .fault f) : f.after.policies = s.policies := by
  rw [after_of_step_fault h]
  split
  · rfl
  · exact State.advancePc_policies s

@[simp] theorem hostStep_policies (s : State) : (hostStep s).2.policies = s.policies := by
  unfold hostStep
  split
  next t h => exact policies_of_step_next h
  next f h => exact policies_of_step_fault h
  next => rfl

@[simp] theorem setKey_policies (s : State) (k : Nat) (down : Bool) : (setKey s k down).policies = s.policies := by
  unfold setKey
  split <;> rfl

@[simp] theorem serve_policies (s : State) (op : PortOp) : (serve s op).2.policies = s.policies := by
  cases op with
  | step => exact hostStep_policies s
  | keyDown k | keyUp k => exact setKey_policies ..
  | tickTimers | readFramebuffer | readSound => rfl

@[simp] theorem serveAll_policies (s : State) (ops : List PortOp) : (serveAll s ops).policies = s.policies := by
  induction ops generalizing s with
  | nil => rfl
  | cons op rest ih => exact (ih _).trans (serve_policies s op)

/-! ## Construction (R200–R203) -/

/-- Settles O55: memory by the three address ranges, every other component as at reset, and the policies kept by every
operation. -/
theorem constructionState : Obligations.ConstructionState := by
  unfold Obligations.ConstructionState
  refine fun p program => ⟨(construct_eq_programTooLarge p program).2, fun hlen =>
    ⟨constructedState p program, (construct_eq_core ..).2 ⟨hlen, rfl⟩, fun k hk => ?program,
      fun k hk => byteAt_constructedState_font p program hk, fun a ha => byteAt_constructedState_fill p program ha,
      rfl, fun c r _ _ => State.reset_cell c r, State.reset_reg, rfl, rfl, fun k _ => State.reset_slot k, rfl, rfl,
      fun k _ => State.reset_keyDown k, constructedState_policies p program, fun ops => ?policies⟩⟩
  case program =>
    rw [byteAt_constructedState_program p program (by omega), List.getD_eq_getElem _ _ hk]
  case policies =>
    rw [serveAll_policies, constructedState_policies]

/-- Settles O56: the word the empty program leaves at 0x200 is unknown, so under the default policy the first step passes
over it. -/
theorem firstFetchAfterConstruction : Obligations.FirstFetchAfterConstruction := by
  unfold Obligations.FirstFetchAfterConstruction
  refine ⟨fun p program hlen =>
    ⟨_, (construct_eq_core ..).2 ⟨hlen, rfl⟩, rfl, fetchWord_constructedState p program⟩, ?_⟩
  have hfetch : fetchWord (constructedState defaultParameters []) = some 0x0000 :=
    fetchWord_constructedState defaultParameters []
  have hunknown : decodeWord 0x0000 = .unknown 0x0000 := by decide
  obtain ⟨hnoOp, hstep⟩ := unknownWordFollowsPolicy
  obtain ⟨hnext, -⟩ := hstep _ _ _ hfetch hunknown
  exact ⟨_, (construct_eq_core ..).2 ⟨Nat.zero_le _, rfl⟩, hfetch, hunknown, hnext hnoOp⟩

end Sys2Proof.Machine

/-! SUPPORT. The invariant of 10_state.md R37: each instruction keeps it from a state a fetch advance can leave, so every step
does, and so does every host operation. -/

namespace Sys2Proof.Machine

/-! ## An instruction keeps the invariant (R25, R28, R50) -/

section
variable {i : Instr} {s t : State}

/-- R50: an instruction keeps memory in canonical form. -/
theorem wf_of_exec_next (hwf : s.mem.wf = true) (h : exec i s = .next t) : t.mem.wf = true := by
  cases hi : writesMem i with
  | false => rwa [mem_of_exec_next_of_not_writesMem hi h]
  | true =>
    obtain ⟨x, rfl⟩ | ⟨x, rfl⟩ := (writesMem_iff i).1 hi
    · exact State.wf_writeBlock ((nextOr_eq_next ..).1 h) hwf
    · obtain ⟨stored, hstored, rfl⟩ := Option.map_eq_some_iff.1 ((nextOr_eq_next ..).1 h)
      rw [State.stepIndex_mem]
      exact State.wf_writeBlock hstored hwf

/-- R103: a CALL that completes pushed the PC it saw. -/
theorem stack_of_execCall_next {nnn : Addr} (h : execCall nnn s = .next t) :
    t.sp.val = s.sp.val + 1 ∧ ∀ k, t.slot k = if k = s.sp.val then s.pc else s.slot k := by
  obtain ⟨pushed, hpush, rfl⟩ := Option.map_eq_some_iff.1 ((nextOr_eq_next ..).1 h)
  have hslot := State.slot_push hpush
  obtain ⟨hsp, rfl⟩ := (State.push_eq_some ..).1 hpush
  exact ⟨rfl, hslot⟩

/-- R101: a RET that completes found a live slot, and changed none. -/
theorem stack_of_execRet_next (h : execRet s = .next t) :
    0 < s.sp.val ∧ t.sp.val = s.sp.val - 1 ∧ ∀ k, t.slot k = s.slot k := by
  obtain ⟨popped, hpop, rfl⟩ := Option.map_eq_some_iff.1 ((nextOr_eq_next ..).1 h)
  obtain ⟨hpos, rfl⟩ := (State.pop_eq_some ..).1 hpop
  exact ⟨hpos, rfl, fun k => rfl⟩

/-- R28: only CALL and RET move the stack. -/
theorem footprint_stack_iff (i : Instr) : (footprint i).stack ↔ i = .ret ∨ ∃ nnn, i = .call nnn := by
  cases i <;> simp [footprint]

theorem State.slot_congr (h : t.stack = s.stack) (k : Nat) : t.slot k = s.slot k := by simp only [State.slot, h]

/-- R28, R37: a slot that an instruction leaves live was live before, or holds the PC that a CALL saw. -/
theorem State.Inv.slot_le_of_exec_next (hs : s.Inv) (hpc : s.pc.toNat ≤ 0x1000) (h : exec i s = .next t) :
    ∀ k, k < t.sp.val → (t.slot k).toNat ≤ 0x1000 := by
  intro k hk
  by_cases hi : (footprint i).stack
  · obtain rfl | ⟨nnn, rfl⟩ := (footprint_stack_iff i).1 hi
    · obtain ⟨-, hdepth, hslot⟩ := stack_of_execRet_next h
      rw [hslot]
      exact hs.slot_le k (by omega)
    · obtain ⟨hdepth, hslot⟩ := stack_of_execCall_next h
      rw [hslot]
      split
      · exact hpc
      · exact hs.slot_le k (by omega)
  · obtain ⟨hstack, hdepth⟩ := (frame_of_exec_next h).stack hi
    rw [State.slot_congr hstack]
    exact hs.slot_le k (hdepth ▸ hk)

/-- R25, R37: where an instruction moves PC to, from a PC that a fetch advance leaves. -/
theorem State.Inv.pc_le_of_exec_next (hs : s.Inv) (hlow : 2 ≤ s.pc.toNat) (hhigh : s.pc.toNat ≤ 0x1000)
    (h : exec i s = .next t) : t.pc.toNat ≤ 0x10FE := by
  cases i with
  | jp nnn =>
    cases h
    rw [State.setPc_pc, toNat_jumpTarget]
    omega
  | call nnn =>
    rw [pc_of_execCall_next h, toNat_jumpTarget]
    omega
  | ret =>
    obtain ⟨hpos, -⟩ := stack_of_execRet_next h
    rw [pc_of_execRet_next h]
    exact (hs.slot_le _ (Nat.sub_one_lt_of_lt hpos)).trans (by decide)
  | jpV0 nnn =>
    cases h
    rw [State.setPc_pc, toNat_offsetTarget]
    split <;> omega
  | ldVxK x =>
    rw [pc_of_execLdVxK_next h]
    split <;> bv_omega
  | seImm | sneImm | seReg | sneReg | skp | sknp =>
    cases h
    rw [State.skipIf_pc]
    split <;> bv_omega
  | _ =>
    rw [pc_of_exec_next_of_not_writesPc rfl h]
    omega

/-- R37: an instruction that completes keeps the invariant. -/
theorem State.Inv.exec_next (hs : s.Inv) (hlow : 2 ≤ s.pc.toNat) (hhigh : s.pc.toNat ≤ 0x1000)
    (h : exec i s = .next t) : t.Inv where
  mem_wf := wf_of_exec_next hs.mem_wf h
  pc_le := hs.pc_le_of_exec_next hlow hhigh h
  slot_le := hs.slot_le_of_exec_next hhigh h

end

/-! ## A step keeps the invariant (R92, R182) -/

section
variable {s : State}

/-- R92: the fetch advance keeps the invariant. -/
theorem State.Inv.advancePc (hs : s.Inv) (hpc : s.pc.toNat + 1 ≤ 0xFFF) : s.advancePc.Inv where
  mem_wf := hs.mem_wf
  pc_le := by
    show (s.pc + 2).toNat ≤ 0x10FE
    rw [toNat_pc_add_two hpc]
    omega
  slot_le := hs.slot_le

theorem State.Inv.step_next {t : State} (hs : s.Inv) (h : step s = .next t) : t.Inv := by
  obtain ⟨d, hdecode, hexec⟩ := execDecoded_of_step_next h
  obtain ⟨w, hfetch, -⟩ := Option.map_eq_some_iff.1 hdecode
  obtain ⟨hpc, -⟩ := (fetchWord_eq_some s w).1 hfetch
  have hadvance : s.advancePc.pc.toNat = s.pc.toNat + 2 := toNat_pc_add_two hpc
  cases d with
  | instr i => exact (hs.advancePc hpc).exec_next (by omega) (by omega) hexec
  | unknown u => exact eq_of_execUnknown_next hexec ▸ hs.advancePc hpc

theorem State.Inv.step_fault {f : Fault} (hs : s.Inv) (h : step s = .fault f) : f.after.Inv := by
  rw [after_of_step_fault h]
  split
  · exact hs
  · exact hs.advancePc (by omega)

end

/-- Settles O14: an instruction starts from the PC that the fetch advance leaves, between 2 and 0x1000, and a fault leaves
that state or the one before it. -/
theorem stepKeepsInvariant : Obligations.StepKeepsInvariant := by
  unfold Obligations.StepKeepsInvariant
  exact fun s hs => ⟨fun t h => hs.step_next h, fun f h => hs.step_fault h⟩

/-! ## Every state a host can reach (R187, R200, R209) -/

/-- R202: but for memory and the policies, which bound nothing, a constructed core is as at reset. -/
theorem inv_constructedState (p : BuildParameters) (program : List Byte) : (constructedState p program).Inv :=
  have hreset : State.reset.Inv := invariantAtReset
  { mem_wf := wf_constructedState p program, pc_le := hreset.pc_le, slot_le := hreset.slot_le }

theorem State.Inv.setKey {s : State} (hs : s.Inv) (k : Nat) (down : Bool) : (setKey s k down).Inv := by
  unfold Machine.setKey
  split
  · exact { mem_wf := hs.mem_wf, pc_le := hs.pc_le, slot_le := hs.slot_le }
  · exact hs

/-- R184: the host goes on from a step that faulted too. -/
theorem State.Inv.hostStep {s : State} (hs : s.Inv) : (hostStep s).2.Inv := by
  unfold Machine.hostStep
  split
  next t h => exact hs.step_next h
  next f h => exact hs.step_fault h
  next => exact hs

theorem State.Inv.serve {s : State} (hs : s.Inv) (op : PortOp) : (serve s op).2.Inv := by
  cases op with
  | step => exact hs.hostStep
  | keyDown k | keyUp k => exact hs.setKey k _
  | tickTimers => exact { mem_wf := hs.mem_wf, pc_le := hs.pc_le, slot_le := hs.slot_le }
  | readFramebuffer | readSound => exact hs

theorem Reachable.inv {s : State} (h : Reachable s) : s.Inv := by
  induction h with
  | built p program s h =>
    obtain ⟨-, rfl⟩ := (construct_eq_core ..).1 h
    exact inv_constructedState p program
  | served s op _ ih => exact ih.serve op

/-- R22: VF is a flag right after a step that ran a flag-producing instruction. -/
theorem reg_VF_of_step_next {i : Instr} {s t : State} (hdecode : (fetchWord s).map decodeWord = some (.instr i))
    (hi : producesFlag i = true) (h : step s = .next t) : t.reg 0xF = 0 ∨ t.reg 0xF = 1 := by
  rw [step_of_decode_instr hdecode] at h
  obtain ⟨u, flag, rfl⟩ := exists_eq_setFlag_of_exec_next hi h
  exact State.reg_setFlag_VF_eq_zero_or_one u flag

/-- Settles O15: construction meets the invariant and every operation keeps it; the other bounds are the widths of the
fields. -/
theorem reachableStatesMeetInvariant : Obligations.ReachableStatesMeetInvariant := by
  unfold Obligations.ReachableStatesMeetInvariant
  exact fun s h => ⟨h.inv, fun z => Nat.le_of_lt_succ (s.reg z).isLt, Nat.le_of_lt_succ s.i.isLt,
    Nat.le_of_lt_succ s.sp.isLt, Nat.le_of_lt_succ s.dt.isLt, Nat.le_of_lt_succ s.st.isLt,
    fun _ _ hdecode hi hstep => reg_VF_of_step_next hdecode hi hstep⟩

end Sys2Proof.Machine

/-! SUPPORT. Memory and the host operations (20_memory.md R50, R64, 42_alu.md R131, 60_exceptions.md R184, R189,
70_reset_and_hazards.md R202): the canonical form is one, a fetch sees a store, and what a draw, a key event, a repeated fetch
fault and an empty construction give. -/

namespace Sys2Proof.Machine

/-! ## The canonical form is one (R50, R61) -/

@[simp] theorem read_cons_self (k : Nat) (c : Byte) (m : Memory) : Memory.read ((k, c) :: m) k = c := if_pos rfl

theorem read_cons_of_ne {a k : Nat} (h : a ≠ k) (c : Byte) (m : Memory) : Memory.read ((k, c) :: m) a = m.read a := if_neg h

/-- A list in form whose first address is `k` differs at `k` from every list in form that starts above it. -/
theorem read_ne_of_first_lt {low k : Nat} {c : Byte} {m m' : Memory} (h : risingFrom low ((k, c) :: m) = true)
    (h' : risingFrom (k + 1) m' = true) : Memory.read ((k, c) :: m) k ≠ m'.read k := by
  obtain ⟨-, -, hc, -⟩ := (risingFrom_cons ..).1 h
  rwa [read_cons_self, read_below h' (Nat.lt_succ_self k)]

/-- Two lists in form that read the same are one list, entry by entry. -/
theorem eq_of_rising_of_read_eq {low low' : Nat} {m m' : Memory} (h : risingFrom low m = true)
    (h' : risingFrom low' m' = true) (hread : ∀ a, a ≤ 0xFFF → m.read a = m'.read a) : m = m' := by
  induction m generalizing low low' m' with
  | nil =>
    cases m' with
    | nil => rfl
    | cons e' rest' =>
      obtain ⟨-, hk', -, -⟩ := (risingFrom_cons ..).1 h'
      exact absurd (hread e'.1 (Nat.le_of_lt_succ hk')).symm (read_ne_of_first_lt h' rfl)
  | cons e rest ih =>
    obtain ⟨k, c⟩ := e
    obtain ⟨-, hk, -, hrest⟩ := (risingFrom_cons ..).1 h
    cases m' with
    | nil => exact absurd (hread k (Nat.le_of_lt_succ hk)) (read_ne_of_first_lt h rfl)
    | cons e' rest' =>
      obtain ⟨k', c'⟩ := e'
      obtain ⟨-, hk', hc', hrest'⟩ := (risingFrom_cons ..).1 h'
      obtain hlt | rfl | hgt := Nat.lt_trichotomy k k'
      · exact absurd (hread k (Nat.le_of_lt_succ hk))
          (read_ne_of_first_lt h ((risingFrom_cons ..).2 ⟨hlt, hk', hc', hrest'⟩))
      · have hhead : c = c' := by simpa using hread k (Nat.le_of_lt_succ hk)
        have htail : ∀ a, a ≤ 0xFFF → Memory.read rest a = Memory.read rest' a := by
          intro a ha
          by_cases hak : a = k
          · rw [hak, read_below hrest (Nat.lt_succ_self k), read_below hrest' (Nat.lt_succ_self k)]
          · simpa only [read_cons_of_ne hak] using hread a ha
        rw [hhead, ih hrest hrest' htail]
      · obtain ⟨-, -, hc, -⟩ := (risingFrom_cons ..).1 h
        exact absurd (hread k' (Nat.le_of_lt_succ hk')).symm
          (read_ne_of_first_lt h' ((risingFrom_cons ..).2 ⟨hgt, hk, hc, hrest⟩))

/-- Settles O16: the first address listed by one and not by the other would read differently. -/
theorem memoryFormIsUnique : Obligations.MemoryFormIsUnique := by
  unfold Obligations.MemoryFormIsUnique
  exact fun m m' hm hm' hread => eq_of_rising_of_read_eq hm hm' hread

/-! ## A fetch after a store (R64, R145) -/

/-- Settles O22: the two bytes that the fetch reads are those that the store left at offsets 0 and 1. -/
theorem fetchSeesEarlierStore : Obligations.FetchSeesEarlierStore := by
  unfold Obligations.FetchSeesEarlierStore
  intro s x hwf hx hi
  obtain ⟨-, hstore, -⟩ := storeRegisterBlock x s
  obtain ⟨t, hexec, -, hbyte, -⟩ := hstore hwf hi
  have hpc : (s.i.setWidth 16).toNat = s.i.toNat := BitVec.toNat_setWidth_of_le (by decide)
  refine ⟨t, hexec, (fetchWord_eq_some ..).2 ?_⟩
  rw [State.setPc_pc, hpc, State.setPc_byteAt, State.setPc_byteAt]
  exact ⟨by omega, congrArg₂ wordOfBytes (hbyte 0x0 (Nat.zero_le _)).symm (hbyte 0x1 hx).symm⟩

/-! ## RND (R131) -/

/-- Settles O37: the draw is taken before the counter moves on. -/
theorem randomByteMasked : Obligations.RandomByteMasked := by
  unfold Obligations.RandomByteMasked
  refine fun x nn s => ⟨decodeWord_encode (.rnd x nn), _, rfl, rfl, frame_of_exec_next (i := .rnd x nn) rfl, fun k => ?_, rfl⟩
  rw [State.countDraw_reg, State.reg_setReg_self]
  exact BitVec.getLsbD_and

/-! ## Key events (R189, D19) -/

theorem setKey_setKey_self (s : State) (k : Nat) (down : Bool) : setKey (setKey s k down) k down = setKey s k down := by
  by_cases hk : k < 16
  · rw [setKey_of_lt s hk, setKey_of_lt _ hk, State.setKeys_keys, Vector.set_set]
    rfl
  · rw [setKey_of_ge s (Nat.not_lt.1 hk), setKey_of_ge s (Nat.not_lt.1 hk)]

/-- Settles O52: the key exists or it does not. -/
theorem keyEvents : Obligations.KeyEvents := by
  unfold Obligations.KeyEvents
  exact fun s k =>
    ⟨fun hk => ⟨congrArg (Prod.mk Reply.done) (setKey_of_lt s hk true), congrArg (Prod.mk Reply.done) (setKey_of_lt s hk false)⟩,
      fun hk => ⟨congrArg (Prod.mk Reply.done) (setKey_of_ge s hk true), congrArg (Prod.mk Reply.done) (setKey_of_ge s hk false)⟩,
      setKey_setKey_self s k true⟩

/-! ## A fetch fault again and again (R184, D6) -/

/-- An operation that leaves the state as it is leaves it so however often it is called. -/
theorem serveAll_replicate_of_serve_eq {s : State} {op : PortOp} (h : (serve s op).2 = s) (n : Nat) :
    serveAll s (List.replicate n op) = s := by
  induction n with
  | zero => rfl
  | succ n ih => rw [List.replicate_succ, serveAll, h, ih]

/-- Settles O54: the fault leaves PC where it was, so the next fetch is the same. -/
theorem fetchFaultRepeats : Obligations.FetchFaultRepeats := by
  unfold Obligations.FetchFaultRepeats
  intro s n hpc
  have hserve : serve s .step = (.err .outOfBoundsAddress, s) := serve_step_of_fault (step_of_fetch_fault hpc)
  exact ⟨hserve, serveAll_replicate_of_serve_eq (by rw [hserve]) n⟩

/-! ## The empty construction (R201, R202, D16) -/

theorem constructedByte_default_nil (a : Nat) : constructedByte defaultParameters [] a = initialByte a := by
  unfold constructedByte initialByte
  split
  next ha =>
    rw [if_neg (by omega)]
    exact List.getD_nil ..
  next =>
    split
    · exact Vector.getElem_ofFn ..
    · rfl

/-- R50: with the default font and fill, the empty program leaves every byte as an unlisted address reads. -/
theorem memoryOf_constructedByte_default_nil : memoryOf (constructedByte defaultParameters []) = [] :=
  memoryFormIsUnique _ _ (wf_memoryOf _) rfl fun a ha => by
    rw [read_memoryOf _ (Nat.lt_succ_of_le ha), constructedByte_default_nil]
    rfl

/-- Settles O57: memory in form is determined by its bytes, and every other component is taken from the reset state. -/
theorem resetIsEmptyConstruction : Obligations.ResetIsEmptyConstruction := by
  unfold Obligations.ResetIsEmptyConstruction
  refine (construct_eq_core ..).2 ⟨Nat.zero_le _, ?_⟩
  rw [constructedState, memoryOf_constructedByte_default_nil]
  rfl

/-! ## Stale slots (R28, R29, log entry 9) -/

/-- Settles O59: a CALL writes the one slot at SP, a RET none. -/
theorem staleSlotsKeepTheirValue : Obligations.StaleSlotsKeepTheirValue := by
  unfold Obligations.StaleSlotsKeepTheirValue
  refine fun s => ⟨fun nnn hsp => ?_, fun hsp => ?_⟩
  · obtain ⟨t, hexec, -, -, hslot⟩ := exec_call_of_lt nnn hsp
    exact ⟨t, hexec, fun k hk => by rw [hslot, if_neg (Nat.ne_of_gt hk)]⟩
  · obtain ⟨t, hexec, -, -, hslot⟩ := exec_ret_of_pos hsp
    exact ⟨t, hexec, fun k _ => hslot k⟩

end Sys2Proof.Machine

/-! SUPPORT. What no instruction reads (10_state.md R29, R30): stale stack slots and the sound timer. A change of the stack's
slots or of ST passes through every instruction that does not itself write that component. -/

namespace Sys2Proof.Machine

/-! ## A change carried through an outcome -/

/-- The fault with its state changed. -/
def Fault.map (u : State → State) : Fault → Fault
  | .stackOverflow s => .stackOverflow (u s)
  | .stackUnderflow s => .stackUnderflow (u s)
  | .outOfBoundsAddress s => .outOfBoundsAddress (u s)
  | .unknownOpcode s => .unknownOpcode (u s)

@[simp] theorem Fault.kind_map (u : State → State) (f : Fault) : (f.map u).kind = f.kind := by cases f <;> rfl

@[simp] theorem Fault.after_map (u : State → State) (f : Fault) : (f.map u).after = u f.after := by cases f <;> rfl

/-- The outcome with the state it leaves changed. -/
def mapOutcome (u : State → State) : Host.Outcome State Fault Refusal → Host.Outcome State Fault Refusal
  | .next t => .next (u t)
  | .fault f => .fault (f.map u)
  | .refused r => .refused r

theorem raise_map (u : State → State) (kind : FaultKind) (s : State) : raise kind (u s) = mapOutcome u (raise kind s) := by
  cases kind <;> rfl

theorem nextOr_map (u : State → State) (kind : FaultKind) (s : State) (o : Option State) :
    nextOr kind (u s) (o.map u) = mapOutcome u (nextOr kind s o) := by
  cases o with
  | none => exact raise_map u kind s
  | some t => rfl

/-! ## A change of the slots and of ST -/

/-- The state with its slots changed by `f` and its sound timer by `g`. -/
def State.mapSlotsSound (f : Vector Word 16 → Vector Word 16) (g : Byte → Byte) (s : State) : State :=
  (s.setStack (f s.stack) s.sp).setSound (g s.st)

section
variable (f : Vector Word 16 → Vector Word 16) (g : Byte → Byte) (s : State)

theorem State.skipIf_mapSlotsSound (skip : Bool) :
    (s.mapSlotsSound f g).skipIf skip = (s.skipIf skip).mapSlotsSound f g := by
  cases skip <;> rfl

theorem State.stepIndex_mapSlotsSound (x : Nibble) :
    (s.mapSlotsSound f g).stepIndex x = (s.stepIndex x).mapSlotsSound f g := by
  unfold State.stepIndex
  rw [apply_ite (State.mapSlotsSound f g)]
  rfl

theorem State.setRegs_mapSlotsSound (k : Nat) (l : List Byte) :
    (s.mapSlotsSound f g).setRegs k l = (s.setRegs k l).mapSlotsSound f g := by
  induction l generalizing s k with
  | nil => rfl
  | cons b l ih => exact ih (s.setReg _ b) (k + 1)

theorem State.writeBlock_mapSlotsSound (a : Nat) (l : List Byte) :
    (s.mapSlotsSound f g).writeBlock a l = (s.writeBlock a l).map (State.mapSlotsSound f g) := by
  unfold State.writeBlock
  rw [apply_ite (Option.map (State.mapSlotsSound f g))]
  rfl

theorem execUnknown_mapSlotsSound :
    execUnknown (s.mapSlotsSound f g) = mapOutcome (State.mapSlotsSound f g) (execUnknown s) := by
  cases hpolicy : s.policies.unknownOpcode with
  | noOp =>
    rw [execUnknown_of_noOp hpolicy]
    exact execUnknown_of_noOp (s := s.mapSlotsSound f g) hpolicy
  | fatal =>
    rw [execUnknown_of_fatal hpolicy]
    exact execUnknown_of_fatal (s := s.mapSlotsSound f g) hpolicy

theorem execDrw_mapSlotsSound (x y n : Nibble) :
    execDrw x y n (s.mapSlotsSound f g) = mapOutcome (State.mapSlotsSound f g) (execDrw x y n s) := by
  unfold execDrw
  rw [← nextOr_map, Option.map_map]
  rfl

theorem execLdVxK_mapSlotsSound (x : Nibble) :
    execLdVxK x (s.mapSlotsSound f g) = mapOutcome (State.mapSlotsSound f g) (execLdVxK x s) := by
  have hkey : (s.mapSlotsSound f g).lowestKey = s.lowestKey := rfl
  simp only [execLdVxK, hkey]
  cases s.lowestKey <;> rfl

theorem execLdBVx_mapSlotsSound (x : Nibble) :
    execLdBVx x (s.mapSlotsSound f g) = mapOutcome (State.mapSlotsSound f g) (execLdBVx x s) := by
  unfold execLdBVx
  rw [← nextOr_map, ← State.writeBlock_mapSlotsSound]
  rfl

theorem execLdMemVx_mapSlotsSound (x : Nibble) :
    execLdMemVx x (s.mapSlotsSound f g) = mapOutcome (State.mapSlotsSound f g) (execLdMemVx x s) := by
  unfold execLdMemVx
  rw [← nextOr_map, State.writeBlock_mapSlotsSound, Option.map_map, Option.map_map]
  exact congrArg _ (congrArg (Option.map · _) (funext fun stored => stored.stepIndex_mapSlotsSound f g x))

theorem execLdVxMem_mapSlotsSound (x : Nibble) :
    execLdVxMem x (s.mapSlotsSound f g) = mapOutcome (State.mapSlotsSound f g) (execLdVxMem x s) := by
  unfold execLdVxMem
  rw [← nextOr_map, Option.map_map]
  refine congrArg _ (congrArg (Option.map · _) (funext fun bytes => ?_))
  rw [Function.comp_apply, State.setRegs_mapSlotsSound, State.stepIndex_mapSlotsSound]

/-- R29, R30: an instruction that does not write the stack lets the change through and does not depend on it; LD_ST_VX, which
writes ST over, lets through a change that keeps ST. -/
theorem exec_mapSlotsSound {i : Instr} (hstack : ¬ (footprint i).stack) (hsound : (footprint i).sound → g = id) :
    exec i (s.mapSlotsSound f g) = mapOutcome (State.mapSlotsSound f g) (exec i s) := by
  cases i with
  | ret | call => exact absurd trivial hstack
  | ldStVx =>
    rw [hsound trivial]
    rfl
  | seImm | sneImm | seReg | sneReg | skp | sknp => exact congrArg Host.Outcome.next (State.skipIf_mapSlotsSound ..)
  | drw x y n => exact execDrw_mapSlotsSound f g s x y n
  | ldVxK x => exact execLdVxK_mapSlotsSound f g s x
  | ldBVx x => exact execLdBVx_mapSlotsSound f g s x
  | ldMemVx x => exact execLdMemVx_mapSlotsSound f g s x
  | ldVxMem x => exact execLdVxMem_mapSlotsSound f g s x
  | _ => rfl

theorem execDecoded_mapSlotsSound {d : Decoded} (hstack : ¬ (decodedFootprint d).stack)
    (hsound : (decodedFootprint d).sound → g = id) :
    execDecoded d (s.mapSlotsSound f g) = mapOutcome (State.mapSlotsSound f g) (execDecoded d s) := by
  cases d with
  | instr i => exact exec_mapSlotsSound f g s hstack hsound
  | unknown w => exact execUnknown_mapSlotsSound f g s

end

/-- R28: only CALL and RET move the stack. -/
theorem decodedFootprint_stack_iff (d : Decoded) :
    (decodedFootprint d).stack ↔ d = .instr .ret ∨ ∃ nnn, d = .instr (.call nnn) := by
  cases d with
  | instr i => simpa [decodedFootprint] using footprint_stack_iff i
  | unknown w => simp [decodedFootprint]

theorem frame_of_execDecoded_next {d : Decoded} {s t : State} (h : execDecoded d s = .next t) :
    Frame (decodedFootprint d) s t := by
  cases d with
  | instr i => exact frame_of_exec_next h
  | unknown w =>
    obtain rfl := eq_of_execUnknown_next h
    exact Frame.refl _ _

/-! ## The sound timer (R30) -/

section
variable {s t : State} (b : Byte)

theorem State.push_setSound (w : Word) : (s.setSound b).push w = (s.push w).map (State.setSound · b) := by
  unfold State.push
  rw [apply_dite (Option.map (State.setSound · b))]
  rfl

theorem execCall_setSound (nnn : Addr) : execCall nnn (s.setSound b) = mapOutcome (State.setSound · b) (execCall nnn s) := by
  unfold execCall
  rw [← nextOr_map, State.setSound_pc, State.push_setSound, Option.map_map, Option.map_map]
  rfl

theorem execRet_setSound : execRet (s.setSound b) = mapOutcome (State.setSound · b) (execRet s) := by
  have hpop : (s.setSound b).pop = s.pop.map fun p => (p.1, p.2.setSound b) := by
    unfold State.pop
    rw [apply_ite (Option.map _)]
    rfl
  unfold execRet
  rw [← nextOr_map, hpop, Option.map_map, Option.map_map]
  rfl

theorem execDecoded_setSound {d : Decoded} (hd : ¬ (decodedFootprint d).sound) :
    execDecoded d (s.setSound b) = mapOutcome (State.setSound · b) (execDecoded d s) := by
  by_cases hstack : (decodedFootprint d).stack
  · obtain rfl | ⟨nnn, rfl⟩ := (decodedFootprint_stack_iff d).1 hstack
    · exact execRet_setSound b
    · exact execCall_setSound b nnn
  · exact execDecoded_mapSlotsSound id (fun _ => b) s hstack fun hsound => absurd hsound hd

/-- R30: whatever executes writes ST over, or carries its value along. -/
theorem execDecoded_next_setSound {d : Decoded} (h : execDecoded d s = .next t) :
    ∃ t', execDecoded d (s.setSound b) = .next t' ∧ t'.setSound t.st = t := by
  by_cases hd : (decodedFootprint d).sound
  · obtain ⟨x, rfl⟩ := (decodedFootprint_sound_iff d).1 hd
    exact ⟨t, h, rfl⟩
  · exact ⟨t.setSound b, by rw [execDecoded_setSound b hd, h]; rfl, rfl⟩

end

/-- Settles O21: the fetch reads memory and PC alone, and what executes then does not read ST. -/
theorem soundTimerIsNotRead : Obligations.SoundTimerIsNotRead := by
  unfold Obligations.SoundTimerIsNotRead
  intro s t b h
  obtain ⟨d, hdecode, hexec⟩ := execDecoded_of_step_next h
  rw [step_of_decode (s := s.setSound b) hdecode]
  exact execDecoded_next_setSound b hexec

/-! ## Stale slots (R29, D26) -/

/-- The second outcome is the first but for stale slots: both complete, or both fault with one kind. -/
def SameOutcomeButStale (o o' : Host.Outcome State Fault Refusal) : Prop :=
  (∀ t, o = .next t → ∃ t', o' = .next t' ∧ SameButStale t t') ∧
    ∀ f, o = .fault f → ∃ f', o' = .fault f' ∧ f'.kind = f.kind ∧ SameButStale f.after f'.after

/-- A change of the state that leaves live slots alone gives the same outcome but for stale slots. -/
theorem sameOutcomeButStale_mapOutcome {u : State → State} {o : Host.Outcome State Fault Refusal}
    (hnext : ∀ t, o = .next t → SameButStale t (u t)) (hfault : ∀ f, o = .fault f → SameButStale f.after (u f.after)) :
    SameOutcomeButStale o (mapOutcome u o) := by
  refine ⟨?_, ?_⟩
  · rintro t rfl
    exact ⟨u t, rfl, hnext t rfl⟩
  · rintro f rfl
    exact ⟨f.map u, rfl, f.kind_map u, f.after_map u ▸ hfault f rfl⟩

section
variable {s s' : State} (h : SameButStale s s')
include h

theorem SameButStale.eq_mapSlotsSound : s' = s.mapSlotsSound (fun _ => s'.stack) id := h.1

theorem SameButStale.sp_eq : s'.sp = s.sp := by
  rw [h.eq_mapSlotsSound]
  rfl

theorem SameButStale.pc_eq : s'.pc = s.pc := by
  rw [h.eq_mapSlotsSound]
  rfl

theorem SameButStale.setPc (w : Word) : SameButStale (s.setPc w) (s'.setPc w) :=
  ⟨congrArg (State.setPc · w) h.1, h.2⟩

theorem SameButStale.advancePc : SameButStale s.advancePc s'.advancePc := ⟨congrArg State.advancePc h.1, h.2⟩

theorem SameButStale.fetchWord_eq : fetchWord s' = fetchWord s := by
  rw [h.eq_mapSlotsSound]
  rfl

theorem SameButStale.raise (kind : FaultKind) : SameOutcomeButStale (raise kind s) (raise kind s') := by
  obtain ⟨f, hf, hkind, hafter⟩ := raise_eq_fault kind s
  obtain ⟨f', hf', hkind', hafter'⟩ := raise_eq_fault kind s'
  rw [hf, hf']
  refine ⟨nofun, ?_⟩
  rintro _ ⟨⟩
  exact ⟨f', rfl, hkind'.trans hkind.symm, hafter.symm ▸ hafter'.symm ▸ h⟩

theorem SameButStale.nextOr {kind : FaultKind} {o o' : Option State} (hnone : o = none → o' = none)
    (hsome : ∀ t, o = some t → ∃ t', o' = some t' ∧ SameButStale t t') :
    SameOutcomeButStale (nextOr kind s o) (nextOr kind s' o') := by
  cases o with
  | none =>
    rw [hnone rfl]
    exact h.raise kind
  | some t =>
    obtain ⟨t', rfl, ht⟩ := hsome t rfl
    refine ⟨?_, nofun⟩
    rintro _ ⟨⟩
    exact ⟨t', rfl, ht⟩

/-- R28: a push makes the same slot live in both states, with the same value. -/
theorem SameButStale.push {w : Word} {t : State} (hpush : s.push w = some t) :
    ∃ t', s'.push w = some t' ∧ SameButStale t t' := by
  obtain ⟨slots, rfl⟩ : ∃ slots, s' = s.setStack slots s.sp := ⟨_, h.1⟩
  have hslot := State.slot_push hpush
  obtain ⟨hsp, rfl⟩ := (State.push_eq_some ..).1 hpush
  have hpush' := (State.push_eq_some (s.setStack slots s.sp) _ w).2 ⟨hsp, rfl⟩
  refine ⟨_, hpush', rfl, fun k hk => ?_⟩
  rw [State.slot_push hpush', hslot, State.setStack_sp]
  by_cases htop : k = s.sp.val
  · rw [if_pos htop, if_pos htop]
  · rw [if_neg htop, if_neg htop]
    exact h.2 k (Nat.lt_of_le_of_ne (Nat.le_of_lt_succ hk) htop)

/-- R28: a pop answers a slot that was live. -/
theorem SameButStale.pop {w : Word} {t : State} (hpop : s.pop = some (w, t)) :
    ∃ t', s'.pop = some (w, t') ∧ SameButStale t t' := by
  obtain ⟨slots, rfl⟩ : ∃ slots, s' = s.setStack slots s.sp := ⟨_, h.1⟩
  obtain ⟨hpos, heq⟩ := (State.pop_eq_some ..).1 hpop
  cases heq
  have htop : (s.setStack slots s.sp).slot (s.sp.val - 1) = s.slot (s.sp.val - 1) := h.2 _ (Nat.sub_one_lt_of_lt hpos)
  exact ⟨s.setStack slots ⟨s.sp.val - 1, _⟩, (State.pop_eq_some ..).2 ⟨hpos, Prod.ext htop.symm rfl⟩, rfl,
    fun k hk => h.2 k (Nat.lt_of_lt_of_le hk (Nat.sub_le ..))⟩

theorem SameButStale.execCall (nnn : Addr) : SameOutcomeButStale (execCall nnn s) (execCall nnn s') := by
  refine h.nextOr (fun hnone => ?_) fun t ht => ?_
  · rw [Option.map_eq_none_iff, State.push_eq_none] at hnone ⊢
    rw [h.sp_eq, hnone]
  · obtain ⟨pushed, hpush, rfl⟩ := Option.map_eq_some_iff.1 ht
    obtain ⟨pushed', hpush', hsame⟩ := h.push hpush
    exact ⟨_, Option.map_eq_some_iff.2 ⟨pushed', h.pc_eq ▸ hpush', rfl⟩, hsame.setPc _⟩

theorem SameButStale.execRet : SameOutcomeButStale (execRet s) (execRet s') := by
  refine h.nextOr (fun hnone => ?_) fun t ht => ?_
  · rw [Option.map_eq_none_iff, State.pop_eq_none] at hnone ⊢
    rw [h.sp_eq, hnone]
  · obtain ⟨⟨w, popped⟩, hpop, rfl⟩ := Option.map_eq_some_iff.1 ht
    obtain ⟨popped', hpop', hsame⟩ := h.pop hpop
    exact ⟨_, Option.map_eq_some_iff.2 ⟨(w, popped'), hpop', rfl⟩, hsame.setPc w⟩

/-- R29: whatever executes reads live slots only. -/
theorem SameButStale.execDecoded (d : Decoded) : SameOutcomeButStale (execDecoded d s) (execDecoded d s') := by
  by_cases hstack : (decodedFootprint d).stack
  · obtain rfl | ⟨nnn, rfl⟩ := (decodedFootprint_stack_iff d).1 hstack
    · exact h.execRet
    · exact h.execCall nnn
  · rw [h.eq_mapSlotsSound, execDecoded_mapSlotsSound _ _ s hstack fun _ => rfl]
    refine sameOutcomeButStale_mapOutcome (fun t ht => ?_) fun f hf => ?_
    · obtain ⟨hslots, hdepth⟩ := (frame_of_execDecoded_next ht).stack hstack
      refine ⟨rfl, fun k hk => ?_⟩
      rw [State.slot_congr hslots]
      exact h.2 k (hdepth ▸ hk)
    · rw [after_of_execDecoded_fault hf, ← h.eq_mapSlotsSound]
      exact h

theorem SameButStale.step : SameOutcomeButStale (step s) (step s') := by
  unfold Machine.step
  rw [h.fetchWord_eq]
  cases fetchWord s with
  | none => exact h.raise .outOfBoundsAddress
  | some w => exact h.advancePc.execDecoded (decodeWord w)

end

/-- Settles O20: the fetch reads no slot, and what executes then reads the same live ones. -/
theorem staleSlotsAreNotRead : Obligations.StaleSlotsAreNotRead := by
  unfold Obligations.StaleSlotsAreNotRead
  exact fun s s' h => h.step

end Sys2Proof.Machine
